-- ==== Sys2Proof/Word.lean ====
section
/-! DEFINITION. The word and value types of OPrime CORE (spec/00_scope.md R9, R12, R13; spec/10_state.md R21). -/

namespace Sys2Proof

/-- A 64-bit word: the unit of the register port and of a value (R9, R16). -/
abbrev Word := BitVec 64

/-- A 4096-bit unsigned value, bits `v[4095:0]`, bit 0 least significant (R9, R12, R13).
Its 64 words are the slices of R12 (`Sys2Proof.Machine.word`). -/
abbrev Value := BitVec 4096

/-- The index of a value register, V0 to V15 (R21, R82: every 4-bit index is legal). -/
abbrev VReg := Fin 16

/-- The value register file V[0..15] (R20, R21). -/
abbrev RegFile := Vector Value 16

end Sys2Proof
end

