-- ==== Sys2Proof/Syntax.lean ====
section
/-! DEFINITION. The commands of OPrime CORE: one constructor for each row of spec/opcode_table.json (spec/30_encoding.md R84, R90). -/

namespace Sys2Proof

/-- A command. Operands stand in the order of the assembler syntax (R90): destination, then sources, then the immediate.
An immediate is the unsigned number `nat(IMM)` (R83); that it fits its 32 bits is `Instr.wellFormed` (DESIGN CHOICE, log entry
11). -/
inductive Instr where
  /-- `ADD vd, va, vb` (R111) -/
  | add (rd rs1 rs2 : VReg)
  /-- `SUB vd, va, vb` (R112) -/
  | sub (rd rs1 rs2 : VReg)
  /-- `MUL vd, va, vb` (R114) -/
  | mul (rd rs1 rs2 : VReg)
  /-- `DIV vd, va, vb` (R117) -/
  | div (rd rs1 rs2 : VReg)
  /-- `MOD vd, va, vb` (R118) -/
  | mod (rd rs1 rs2 : VReg)
  /-- `MODEXP vd, vbase, vexp, vmod` (R171): base in RS1, exponent in RS2, modulus in RS3 -/
  | modexp (rd rs1 rs2 rs3 : VReg)
  /-- `ISPRIME vn, #rounds` (R176) -/
  | isprime (rs1 : VReg) (rounds : Nat)
  /-- `AND vd, va, vb` (R140) -/
  | and (rd rs1 rs2 : VReg)
  /-- `OR vd, va, vb` (R141) -/
  | or (rd rs1 rs2 : VReg)
  /-- `XOR vd, va, vb` (R142) -/
  | xor (rd rs1 rs2 : VReg)
  /-- `NOT vd, va` (R143) -/
  | not (rd rs1 : VReg)
  /-- `SHL vd, va, #k` (R144) -/
  | shl (rd rs1 : VReg) (k : Nat)
  /-- `SHR vd, va, #k` (R145) -/
  | shr (rd rs1 : VReg) (k : Nat)
  /-- `CMP va, vb` (R160) -/
  | cmp (rs1 rs2 : VReg)
  /-- `TST va` (R161) -/
  | tst (rs1 : VReg)
  /-- `LDI vd`, the value taken from ARG (R100) -/
  | ldi (rd : VReg)
  deriving DecidableEq, Repr

end Sys2Proof
end

