-- ==== Sys2Proof/WellFormed.lean ====
section
/-! DEFINITION. Which commands can be written as a command word: the immediate must fit the 32-bit IMM field (R81, R83).
Register operands need no check: `VReg` holds exactly the sixteen legal indices (R82). -/

namespace Sys2Proof

/-- An immediate fits the unsigned 32-bit field IMM (R83: 0 ≤ imm ≤ 2^32 − 1). -/
def immFits (n : Nat) : Bool := decide (n < 2 ^ 32)

/-- A command that some command word encodes. An ISPRIME with more than 5 rounds is well formed: it is a legal command word
whose completion reports BAD_ROUNDS (R83, R208). -/
def Instr.wellFormed : Instr → Bool
  | .add _ _ _ => true
  | .sub _ _ _ => true
  | .mul _ _ _ => true
  | .div _ _ _ => true
  | .mod _ _ _ => true
  | .modexp _ _ _ _ => true
  | .isprime _ rounds => immFits rounds
  | .and _ _ _ => true
  | .or _ _ _ => true
  | .xor _ _ _ => true
  | .not _ _ => true
  | .shl _ _ k => immFits k
  | .shr _ _ k => immFits k
  | .cmp _ _ => true
  | .tst _ => true
  | .ldi _ => true

end Sys2Proof
end

