-- ==== Sys2Proof/Decode.lean ====
section
/-! DEFINITION. The decoder of spec/30_encoding.md (R80 to R89), total on every 64-bit word and rejecting by name, and after it
the encoder written from the same tables. -/

namespace Sys2Proof

/-- The fields of a command word (R81), register fields as indices (R82), IMM as the number `nat(c[63:32])` (R83). -/
structure Fields where
  rd : VReg
  rs1 : VReg
  rs2 : VReg
  rs3 : VReg
  imm : Nat
  deriving DecidableEq, Repr

/-- One row of the opcode table (R85): a word `c` is this row's command iff `c &&& mask = pattern` (the spec's `match`);
`build` reads the row's operands from the fields (R84). -/
structure OpcodeRow where
  pattern : Word
  mask : Word
  build : Fields → Instr

/-- Why a word is ILLEGAL. Both reasons complete with ILLEGAL_CMD (R207). -/
inductive IllegalCommand where
  /-- The OP field is none of R84's opcodes (R87). -/
  | reservedOpcode
  /-- A known OP with a nonzero bit in RSV or in a field its row does not use (R86). -/
  | nonzeroUnusedField
  deriving DecidableEq, Repr

/-- The 4-bit register field of `c` whose lowest bit is `lo` (R81, R82). -/
def regField (c : Word) (lo : Nat) : VReg := ⟨(c.extractLsb' lo 4).toNat, (c.extractLsb' lo 4).isLt⟩

/-- `fields(c)` of R89. -/
def fields (c : Word) : Fields :=
  { rd := regField c 8, rs1 := regField c 12, rs2 := regField c 16, rs3 := regField c 20,
    imm := (c.extractLsb' 32 32).toNat }

/-- The opcode table of R85, in its order, with the operand fields of R84. -/
def opcodeTable : List OpcodeRow :=
  [ ⟨0x0000000000000001#64, 0xFFFFFFFFFFF000FF#64, fun f => .add f.rd f.rs1 f.rs2⟩,
    ⟨0x0000000000000002#64, 0xFFFFFFFFFFF000FF#64, fun f => .sub f.rd f.rs1 f.rs2⟩,
    ⟨0x0000000000000003#64, 0xFFFFFFFFFFF000FF#64, fun f => .mul f.rd f.rs1 f.rs2⟩,
    ⟨0x0000000000000004#64, 0xFFFFFFFFFFF000FF#64, fun f => .div f.rd f.rs1 f.rs2⟩,
    ⟨0x0000000000000005#64, 0xFFFFFFFFFFF000FF#64, fun f => .mod f.rd f.rs1 f.rs2⟩,
    ⟨0x0000000000000006#64, 0xFFFFFFFFFF0000FF#64, fun f => .modexp f.rd f.rs1 f.rs2 f.rs3⟩,
    ⟨0x0000000000000007#64, 0x00000000FFFF0FFF#64, fun f => .isprime f.rs1 f.imm⟩,
    ⟨0x0000000000000010#64, 0xFFFFFFFFFFF000FF#64, fun f => .and f.rd f.rs1 f.rs2⟩,
    ⟨0x0000000000000011#64, 0xFFFFFFFFFFF000FF#64, fun f => .or f.rd f.rs1 f.rs2⟩,
    ⟨0x0000000000000012#64, 0xFFFFFFFFFFF000FF#64, fun f => .xor f.rd f.rs1 f.rs2⟩,
    ⟨0x0000000000000013#64, 0xFFFFFFFFFFFF00FF#64, fun f => .not f.rd f.rs1⟩,
    ⟨0x0000000000000014#64, 0x00000000FFFF00FF#64, fun f => .shl f.rd f.rs1 f.imm⟩,
    ⟨0x0000000000000015#64, 0x00000000FFFF00FF#64, fun f => .shr f.rd f.rs1 f.imm⟩,
    ⟨0x0000000000000018#64, 0xFFFFFFFFFFF00FFF#64, fun f => .cmp f.rs1 f.rs2⟩,
    ⟨0x0000000000000019#64, 0xFFFFFFFFFFFF0FFF#64, fun f => .tst f.rs1⟩,
    ⟨0x0000000000000020#64, 0xFFFFFFFFFFFFF0FF#64, fun f => .ldi f.rd⟩ ]

/-- The row matches the word (R85). -/
def OpcodeRow.matchesWord (row : OpcodeRow) (c : Word) : Bool := c &&& row.mask == row.pattern

/-- Every other word is illegal (R88): with a reserved OP (R87), or with a nonzero bit where its row needs 0 (R86). -/
def illegalReason (c : Word) : IllegalCommand :=
  if opcodeTable.any (fun row => row.pattern.extractLsb' 0 8 == c.extractLsb' 0 8) then .nonzeroUnusedField
  else .reservedOpcode

/-- `decode(c)` of R89: the first row that matches, or ILLEGAL. -/
def decode (c : Word) : Except IllegalCommand Instr :=
  match opcodeTable.find? (fun row => row.matchesWord c) with
  | some row => .ok (row.build (fields c))
  | none => .error (illegalReason c)

/-- A word put together from its fields, most significant first (R81): IMM | RSV | RS3 | RS2 | RS1 | RD | OP. -/
def joinFields (op : BitVec 8) (rd rs1 rs2 rs3 : BitVec 4) (rsv : BitVec 8) (imm : BitVec 32) : Word :=
  imm ++ rsv ++ rs3 ++ rs2 ++ rs1 ++ rd ++ op

/-- A command word: its operands in their fields (R81, R82), RSV 0. -/
def assemble (op : BitVec 8) (rd rs1 rs2 rs3 : VReg) (imm : Nat) : Word :=
  joinFields op (BitVec.ofFin rd) (BitVec.ofFin rs1) (BitVec.ofFin rs2) (BitVec.ofFin rs3) 0#8 (BitVec.ofNat 32 imm)

/-- The command word of a well-formed command (R81, R84): its opcode, its operands in their fields, 0 in every other field. -/
def encode : Instr → Word
  | .add rd rs1 rs2 => assemble 0x01#8 rd rs1 rs2 0 0
  | .sub rd rs1 rs2 => assemble 0x02#8 rd rs1 rs2 0 0
  | .mul rd rs1 rs2 => assemble 0x03#8 rd rs1 rs2 0 0
  | .div rd rs1 rs2 => assemble 0x04#8 rd rs1 rs2 0 0
  | .mod rd rs1 rs2 => assemble 0x05#8 rd rs1 rs2 0 0
  | .modexp rd rs1 rs2 rs3 => assemble 0x06#8 rd rs1 rs2 rs3 0
  | .isprime rs1 rounds => assemble 0x07#8 0 rs1 0 0 rounds
  | .and rd rs1 rs2 => assemble 0x10#8 rd rs1 rs2 0 0
  | .or rd rs1 rs2 => assemble 0x11#8 rd rs1 rs2 0 0
  | .xor rd rs1 rs2 => assemble 0x12#8 rd rs1 rs2 0 0
  | .not rd rs1 => assemble 0x13#8 rd rs1 0 0 0
  | .shl rd rs1 k => assemble 0x14#8 rd rs1 0 0 k
  | .shr rd rs1 k => assemble 0x15#8 rd rs1 0 0 k
  | .cmp rs1 rs2 => assemble 0x18#8 0 rs1 rs2 0 0
  | .tst rs1 => assemble 0x19#8 0 rs1 0 0 0
  | .ldi rd => assemble 0x20#8 rd 0 0 0 0

/-- The host's question to the decoder: the command read from a command word whose bits are `w`. A command is one 64-bit word
(R80), whose bit numbering is the table's; bits from `nbits` up are 0. -/
def decodeTableWord (nbits w : Nat) : Option Instr :=
  match decode (BitVec.ofNat 64 (w % 2 ^ nbits)) with
  | .ok i => some i
  | .error _ => none

end Sys2Proof
end

