-- ==== Sys2Proof/Machine/State.lean ====
section
/-! DEFINITION. The state of OPrime CORE (spec/10_state.md R20 to R33), the events its host and its reset input present, the
reasons a step can stop, and the state after reset. -/

namespace Sys2Proof.Machine

/-- STATUS.ERRCODE (R204). The codes 5 to 15 are reserved and the hardware never writes them. -/
inductive ErrCode where
  /-- 0: success completion, or no command since reset -/
  | none
  /-- 1: DIV or MOD by the zero value (R205) -/
  | divByZero
  /-- 2: MODEXP with the zero modulus (R206) -/
  | zeroModulus
  /-- 3: a command word that matches no row of the opcode table (R207) -/
  | illegalCmd
  /-- 4: ISPRIME with more than 5 rounds (R208) -/
  | badRounds
  deriving DecidableEq, Repr

/-- The fields of STATUS (R25). Bits 63:13 are reserved, are written by nothing and read 0 (`statusWord`). -/
structure Status where
  /-- bit 0: 1 from acceptance to completion -/
  busy : Bool
  /-- bit 1: 1 after a completion, until the next acceptance -/
  done : Bool
  /-- bit 2: 1 after an error completion, until the next acceptance -/
  err : Bool
  /-- bit 3: 1 if a host write was ignored because BUSY was 1, until the next acceptance -/
  berr : Bool
  /-- bits 7:4: error code of the last completion -/
  errcode : ErrCode
  /-- bit 8: CMP result, below -/
  lt : Bool
  /-- bit 9: CMP result, equal -/
  eq : Bool
  /-- bit 10: CMP result, above -/
  gt : Bool
  /-- bit 11: TST result -/
  nz : Bool
  /-- bit 12: ISPRIME result -/
  prime : Bool
  deriving DecidableEq, Repr

/-- PEND (R29, R201): the accepted command word with the snapshot of V[0..15] and ARG taken at acceptance. -/
structure Pending where
  cmd : Word
  regs : RegFile
  arg : Word
  deriving DecidableEq, Repr

/-- One host transaction on the register port (R51, R67): req_write, req_off and req_wdata. -/
inductive Transaction where
  /-- `PortRead(off)` -/
  | read (off : BitVec 16)
  /-- `PortWrite(off, d)` -/
  | write (off : BitVec 16) (d : Word)
  deriving DecidableEq, Repr

/-- What happens next. The host and the engine take turns in an order the spec leaves open (R202, R245), and `rst` may rise at
any time (R230), so the order is data: an agenda of events. -/
inductive Event where
  /-- the host performs a transaction (R11, R62) -/
  | host (t : Transaction)
  /-- the engine is given the turn: it takes its completion step if a command is in flight (R202) -/
  | engine
  /-- `rst` is 1 at a rising edge of `clk`, with the transaction the host presents at it, if any (R230, R233) -/
  | reset (presented : Option Transaction)
  deriving DecidableEq, Repr

/-- The machine: the architectural and hidden state of R20 and R29, then three fields of the model's own that hold the world
outside (DESIGN CHOICE, log entries 1, 2 and 3). The engine working registers of R29 are left out, as it allows (log entry 4). ID is a constant (`Config.idValue`, R27). There is no program counter (R30), no carry flag
(R31), no other register file (R32) and no memory (R50). -/
structure State where
  /-- V[0..15] (R21) -/
  regs : RegFile
  /-- ARG (R24) -/
  arg : Word
  /-- CMDR, the command word last accepted (R28) -/
  cmdr : Word
  /-- STATUS (R25) -/
  status : Status
  /-- PEND, held while a command is in flight (R29) -/
  pend : Option Pending
  /-- the model's own: the events still to come, the next one first -/
  agenda : List Event
  /-- the model's own: the data the port has returned to the host's reads (`rsp_rdata`, R67), oldest first -/
  received : List Word
  /-- the model's own: how many free values a run has drawn (R59) -/
  draws : Nat
  deriving DecidableEq, Repr

/-- Faults. There are none: the spec gives every event and every command an effect (an error is a completion, R203; an
ignored transaction changes nothing, R52, R57, R58; DEDUCED, log entry 10). -/
inductive Fault where
  deriving DecidableEq, Repr

/-- Refusals. -/
inductive Refusal where
  /-- Raised by `exec` alone, for a command whose meaning is not modelled yet; no arm raises it now. Safe. -/
  | notModelled (mnemonic : String)
  deriving DecidableEq, Repr

/-- STATUS after reset: every field 0 (R33). -/
def Status.reset : Status :=
  { busy := false, done := false, err := false, berr := false, errcode := .none,
    lt := false, eq := false, gt := false, nz := false, prime := false }

/-- The machine after reset (R33, R230): every value register, ARG, CMDR and STATUS field 0, no command pending. The outside
world has presented nothing yet, and no free value is drawn (DESIGN CHOICE, log entries 1, 2 and 3). -/
def State.reset : State :=
  { regs := Vector.replicate 16 0#4096, arg := 0#64, cmdr := 0#64, status := Status.reset, pend := none,
    agenda := [], received := [], draws := 0 }

end Sys2Proof.Machine
end

