-- ==== Sys2Proof/Config.lean ====
section
/-! DEFINITION. What the spec fixes once for the hardware (parameters, the identity constant, the witness list), and the one
free value the spec leaves open. -/

namespace Sys2Proof

/-- `MAX_ROUNDS` = 5, the largest legal ISPRIME round count (R10). -/
def Config.maxRounds : Nat := 5

/-- `WITNESSES` = [2, 3, 5, 7, 11], the Miller-Rabin bases in order (R10, R173). -/
def Config.witnesses : List Nat := [2, 3, 5, 7, 11]

/-- The constant the ID register reads as (R27): version 0x01, NVREG 0x10, WORDS 0x40, WORD_BITS 0x40, then ASCII "OPRI". -/
def Config.idValue : Word := 0x4F50524940401001#64

/-- FREE VALUE (R59; DESIGN CHOICE of its form, log entry 3): what a read of a VWIN offset returns while STATUS.BUSY = 1, "an unspecified 64-bit value".
`draw` counts the draws of a run, so two reads of one offset may differ; the offset, the command in flight, the register
file and ARG are arguments too, because nothing in the spec makes the value independent of them. -/
opaque Config.busyVwinRead (draw : Nat) (off : BitVec 16) (cmd : Word) (regs : RegFile) (arg : Word) : Word

end Sys2Proof
end

