-- ==== Sys2Proof/Machine/Value.lean ====
section
/-! DEFINITION. The 4096-bit functions the commands and the sequencers use, each as the number its rule gives ("Equivalently …",
"Result: …"). The word-level engines of the same rules stand in Machine/Engines.lean; Laws/Engines.lean proves that
they compute these functions. -/

namespace Sys2Proof.Machine

/-- `word(v, w) = v[64·w+63 : 64·w]` (R12). -/
def word (v : Value) (w : Nat) : Word := v.extractLsb' (64 * w) 64

/-- `v` with its word `w` replaced by `d`, the other 63 words unchanged (R54). -/
def setWord (v : Value) (w : Nat) (d : Word) : Value :=
  (v &&& ~~~((BitVec.allOnes 64).setWidth 4096 <<< (64 * w))) ||| (d.setWidth 4096 <<< (64 * w))

/-- `MAX`, all 64 words 0xFFFFFFFFFFFFFFFF (R15). -/
def maxValue : Value := BitVec.allOnes 4096

/-- `nonzero(a)`: some word is not 0 (R161). -/
def nonzero (a : Value) : Bool := a != 0#4096

/-- `ucmp(a, b)`: the order of `nat(a)` and `nat(b)` (R160). -/
def ucmp (a b : Value) : Ordering := if a < b then .lt else if b < a then .gt else .eq

/-- `add4096`: `(nat(a) + nat(b)) mod 2^4096` (R111). -/
def add4096 (a b : Value) : Value := a + b

/-- `sub4096`: `(nat(a) − nat(b)) mod 2^4096` (R112). -/
def sub4096 (a b : Value) : Value := a - b

/-- `mul4096`: `(nat(a) · nat(b)) mod 2^4096` (R113, R114). -/
def mul4096 (a b : Value) : Value := a * b

/-- `divmod4096`: the exact quotient and remainder (R116). The rule defines it for `b ≠ 0` only, and every use checks that
first (R115, R171, R176). -/
def divmod4096 (a b : Value) : Value × Value := (a / b, a % b)

/-- `shl4096`: `(nat(a) · 2^k) mod 2^4096`, 0 from 4096 up (R144). -/
def shl4096 (a : Value) (k : Nat) : Value := if 4096 ≤ k then 0#4096 else a <<< k

/-- `shr4096`: `⌊nat(a) / 2^k⌋`, 0 from 4096 up (R145). -/
def shr4096 (a : Value) (k : Nat) : Value := if 4096 ≤ k then 0#4096 else a >>> k

/-- `zext_4096` of a word (R100). -/
def zext4096 (a : Word) : Value := a.setWidth 4096

/-- The loop of R170. A turn consumes the lowest bit of `e`; it ends when `e` is zero (R170, decision D18). The exponent has
4096 bits, so 4096 turns of fuel always reach that end (`modexpLoop_fuel`, Laws/NumberTheory.lean). -/
def modexpLoop (m : Value) : Nat → Value → Value → Value → Value
  | 0, result, _, _ => result
  | fuel + 1, result, b, e =>
    if nonzero e then
      modexpLoop m fuel (if e.getLsbD 0 then (divmod4096 (mul4096 result b) m).2 else result)
        (divmod4096 (mul4096 b b) m).2 (shr4096 e 1)
    else result

/-- `modexp4096(base, e, m)`, for a nonzero modulus (R170). It is the composition of the truncating multiply and the
reduction, bit for bit, and not the mathematical power (R172, spec/90_conflicts.md C4). -/
def modexp4096 (base e m : Value) : Value := modexpLoop m 4096 1#4096 (divmod4096 base m).2 e

/-- Step 4 of R173: `while d[0] == 0: d <- shr4096(d, 1); r <- r + 1`. For a nonzero `d` it ends within 4096 turns (R174). -/
def decomposeLoop : Nat → Value → Nat → Value × Nat
  | 0, d, r => (d, r)
  | fuel + 1, d, r => if d.getLsbD 0 then (d, r) else decomposeLoop fuel (shr4096 d 1) (r + 1)

/-- Step 5d of R173: up to `turns` times, square `x` modulo `n`; pass as soon as it equals `n − 1`. -/
def squareLoop (n nm1 : Value) : Nat → Value → Bool
  | 0, _ => false
  | turns + 1, x =>
    let x' := (divmod4096 (mul4096 x x) n).2
    if ucmp x' nm1 = .eq then true else squareLoop n nm1 turns x'

/-- Steps 5a to 5e of R173 for one witness `a`: does it pass? Step 5a is the guard of R175 (spec/90_conflicts.md C1). -/
def witnessPasses (n nm1 d : Value) (r : Nat) (a : Value) : Bool :=
  if !nonzero (divmod4096 a n).2 then true
  else
    let x := modexp4096 a d n
    if ucmp x 1#4096 = .eq || ucmp x nm1 = .eq then true
    else squareLoop n nm1 (r - 1) x

/-- `isprime4096(n, rounds)` (R173): true for probable prime. The first `rounds` witnesses are tried in order. -/
def isprime4096 (n : Value) (rounds : Nat) : Bool :=
  if n.toNat ≤ 1 then false
  else if n.toNat = 2 ∨ n.toNat = 3 then true
  else if !n.getLsbD 0 then false
  else
    let nm1 := sub4096 n 1#4096
    let dr := decomposeLoop 4096 nm1 0
    (Config.witnesses.take rounds).all fun a => witnessPasses n nm1 dr.1 dr.2 (BitVec.ofNat 4096 a)

end Sys2Proof.Machine
end

