-- ==== Sys2Proof/Machine/Flags.lean ====
section
/-! DEFINITION. STATUS: its error codes and its word (spec/10_state.md R25, spec/60_exceptions.md R204), and the flag writes of CMP,
TST and ISPRIME (R26). -/

namespace Sys2Proof.Machine

/-- The code STATUS.ERRCODE holds (R204). -/
def errCodeBits : ErrCode → BitVec 4
  | .none => 0#4
  | .divByZero => 1#4
  | .zeroModulus => 2#4
  | .illegalCmd => 3#4
  | .badRounds => 4#4

/-- STATUS as the host reads it (R25): bits 63:13 read 0, then PRIME, NZ, GT, EQ, LT, ERRCODE, BERR, ERR, DONE, BUSY. -/
def statusWord (st : Status) : Word :=
  0#51 ++ BitVec.ofBool st.prime ++ BitVec.ofBool st.nz ++ BitVec.ofBool st.gt ++ BitVec.ofBool st.eq ++
    BitVec.ofBool st.lt ++ errCodeBits st.errcode ++ BitVec.ofBool st.berr ++ BitVec.ofBool st.err ++
    BitVec.ofBool st.done ++ BitVec.ofBool st.busy

/-- CMP writes LT, EQ and GT together (R26, R160). -/
def State.setOrder (o : Ordering) (s : State) : State :=
  { s with status := { s.status with lt := o == .lt, eq := o == .eq, gt := o == .gt } }

/-- TST writes NZ (R26, R161). -/
def State.setNz (b : Bool) (s : State) : State := { s with status := { s.status with nz := b } }

/-- ISPRIME writes PRIME (R26, R176). -/
def State.setPrime (b : Bool) (s : State) : State := { s with status := { s.status with prime := b } }

end Sys2Proof.Machine
end

