-- ==== Sys2Proof/Machine/Operands.lean ====
section
/-! DEFINITION. Where a command's operands come from: the snapshot taken at acceptance (spec/60_exceptions.md R201,
spec/30_encoding.md R93). -/

namespace Sys2Proof.Machine

/-- The operands of the command in flight: PEND. In a state that holds no PEND (no run reaches a completion there) they are
the live registers, which R201 allows a model to read at completion (DESIGN CHOICE, log entry 5). -/
def State.snapshot (s : State) : Pending := s.pend.getD { cmd := s.cmdr, regs := s.regs, arg := s.arg }

/-- The snapshot value of V[r], the source operand a register field names (R82, R93). -/
def State.src (s : State) (r : VReg) : Value := s.snapshot.regs[r]

/-- ARG as captured at acceptance, the source operand of LDI (R24, R100). -/
def State.srcArg (s : State) : Word := s.snapshot.arg

end Sys2Proof.Machine
end

