-- ==== Sys2Proof/Machine/Ops.lean ====
section
/-! DEFINITION. The operations the machine's events share: the command lifecycle (spec/60_exceptions.md R201, R203, R211), the
register port (spec/20_memory.md R50 to R61) and reset (spec/70_reset_and_hazards.md R230 to R233). -/

namespace Sys2Proof.Machine

/-- `V[r] <- v` (R14, R54). -/
def State.writeReg (r : VReg) (v : Value) (s : State) : State := { s with regs := s.regs.set r.val v r.isLt }

/-- Acceptance of the command word `c` (R201). It decodes nothing, never fails, and changes no flag. -/
def State.accept (c : Word) (s : State) : State :=
  { s with
    cmdr := c
    pend := some { cmd := c, regs := s.regs, arg := s.arg }
    status := { s.status with busy := true, done := false, err := false, berr := false, errcode := .none } }

/-- `finish_error(code)` (R203): the whole of the hardware's response to an error (R213). PEND is held only while BUSY = 1
(R29), so it is emptied here and in `finishOk` (DEDUCED, log entry 6). There is no return from an error: the next acceptance clears
ERR and ERRCODE (R214). -/
def State.finishError (code : ErrCode) (s : State) : State :=
  { s with
    pend := none
    status := { s.status with err := true, errcode := code, done := true, busy := false } }

/-- The STATUS part of `finish_ok` (R211). -/
def State.finishOk (s : State) : State :=
  { s with
    pend := none
    status := { s.status with err := false, errcode := .none, done := true, busy := false } }

/-- `finish_ok` of a command with the destination `rd` (R211): result and status in one step. -/
def State.finishWrite (rd : VReg) (v : Value) (s : State) : State := (s.writeReg rd v).finishOk

/-- What an offset of the register port names (R52, R53, R54). -/
inductive PortTarget where
  | misaligned
  | id
  | cmd
  | status
  | arg
  | vwin (v : VReg) (w : Fin 64)
  | reserved
  deriving DecidableEq, Repr

/-- The address map (R53), after the alignment check (R52). In the window, `v = (off − 0x1000) >> 9` and
`w = ((off − 0x1000) >> 3) & 63` (R54). -/
def portTarget (off : BitVec 16) : PortTarget :=
  if off.toNat % 8 ≠ 0 then .misaligned
  else if off.toNat = 0x0000 then .id
  else if off.toNat = 0x0008 then .cmd
  else if off.toNat = 0x0010 then .status
  else if off.toNat = 0x0018 then .arg
  else if 0x1000 ≤ off.toNat ∧ off.toNat ≤ 0x2FF8 then
    .vwin (Fin.ofNat 16 ((off.toNat - 0x1000) / 512)) (Fin.ofNat 64 ((off.toNat - 0x1000) / 8))
  else .reserved

/-- The offset of word `w` of V[v] (R54). -/
def vwinOffset (v : VReg) (w : Fin 64) : BitVec 16 := BitVec.ofNat 16 (0x1000 + 0x200 * v.val + 8 * w.val)

/-- The data `PortRead(off)` returns (R52, R54, R56, R57). A window read while BUSY = 1 returns a free value (R59, log entry 3). -/
def State.portData (off : BitVec 16) (s : State) : Word :=
  match portTarget off with
  | .misaligned => 0#64
  | .id => Config.idValue
  | .cmd => s.cmdr
  | .status => statusWord s.status
  | .arg => s.arg
  | .vwin v w => if s.status.busy then Config.busyVwinRead s.draws off s.cmdr s.regs s.arg else word s.regs[v] w.val
  | .reserved => 0#64

/-- How many free values `PortRead(off)` draws: one for a window read while BUSY = 1 (R59), else none. -/
def State.portDraws (off : BitVec 16) (s : State) : Nat :=
  match portTarget off with
  | .vwin _ _ => if s.status.busy then 1 else 0
  | .misaligned => 0
  | .id => 0
  | .cmd => 0
  | .status => 0
  | .arg => 0
  | .reserved => 0

/-- `d` is returned to the host. -/
def State.respond (d : Word) (s : State) : State := { s with received := s.received ++ [d] }

/-- `PortRead(off)`: no read has a side effect on the hardware (R61). -/
def State.portRead (off : BitVec 16) (s : State) : State :=
  { s.respond (s.portData off) with draws := s.draws + s.portDraws off }

/-- A write ignored because BUSY = 1 (R58, R210). -/
def State.setBerr (s : State) : State := { s with status := { s.status with berr := true } }

/-- `ARG <- d` (R24). -/
def State.writeArg (d : Word) (s : State) : State := { s with arg := d }

/-- `PortWrite(off, d)` (R52, R54, R57, R58, R201). -/
def State.portWrite (off : BitVec 16) (d : Word) (s : State) : State :=
  match portTarget off with
  | .misaligned => s
  | .id => s
  | .cmd => if s.status.busy then s.setBerr else s.accept d
  | .status => s
  | .arg => if s.status.busy then s.setBerr else s.writeArg d
  | .vwin v w => if s.status.busy then s.setBerr else s.writeReg v (setWord s.regs[v] w.val d)
  | .reserved => s

/-- One host transaction (R51). -/
def State.transact (t : Transaction) (s : State) : State :=
  match t with
  | .read off => s.portRead off
  | .write off d => s.portWrite off d

/-- `rst` is 1 at a clock edge (R230): every piece of hardware state takes its reset value, whatever was in flight (R231). A
transaction presented then has no effect, and a read returns 0 (R233). The record of the world outside goes on (DESIGN CHOICE,
log entry 8). -/
def State.hardReset (presented : Option Transaction) (s : State) : State :=
  let t := { State.reset with agenda := s.agenda, received := s.received, draws := s.draws }
  match presented with
  | some (.read _) => t.respond 0#64
  | some (.write _ _) => t
  | none => t

/-- If a platform maps the port into byte-addressed memory, byte `k` of the register at offset `off`, at byte address
`base + off + k`, holds its bits `[8k+7:8k]` (R55). -/
def State.platformByte (off : BitVec 16) (k : Fin 8) (s : State) : BitVec 8 := (s.portData off).extractLsb' (8 * k.val) 8

end Sys2Proof.Machine
end

