-- ==== Sys2Proof/Machine/Arithmetic.lean ====
section
/-! DEFINITION. The meanings of ADD, SUB, MUL, DIV and MOD (spec/41_arithmetic.md). -/

namespace Sys2Proof.Machine

/-- ADD (R111): wraparound, the carry out is recorded nowhere (R31). -/
def execAdd (rd rs1 rs2 : VReg) (s : State) : Host.Outcome State Fault Refusal :=
  .next (s.finishWrite rd (add4096 (s.src rs1) (s.src rs2)))

/-- SUB (R112): minuend RS1, subtrahend RS2, wraparound. -/
def execSub (rd rs1 rs2 : VReg) (s : State) : Host.Outcome State Fault Refusal :=
  .next (s.finishWrite rd (sub4096 (s.src rs1) (s.src rs2)))

/-- MUL (R114): the low 4096 bits of the product. -/
def execMul (rd rs1 rs2 : VReg) (s : State) : Host.Outcome State Fault Refusal :=
  .next (s.finishWrite rd (mul4096 (s.src rs1) (s.src rs2)))

/-- DIV (R117): the quotient, or DIV_BY_ZERO for the zero divisor (R115, R205). -/
def execDiv (rd rs1 rs2 : VReg) (s : State) : Host.Outcome State Fault Refusal :=
  if nonzero (s.src rs2) then .next (s.finishWrite rd (divmod4096 (s.src rs1) (s.src rs2)).1)
  else .next (s.finishError .divByZero)

/-- MOD (R118): the remainder, or DIV_BY_ZERO for the zero divisor (R115, R205). -/
def execMod (rd rs1 rs2 : VReg) (s : State) : Host.Outcome State Fault Refusal :=
  if nonzero (s.src rs2) then .next (s.finishWrite rd (divmod4096 (s.src rs1) (s.src rs2)).2)
  else .next (s.finishError .divByZero)

end Sys2Proof.Machine
end

