-- ==== Sys2Proof/Machine/Bitwise.lean ====
section
/-! DEFINITION. The meanings of AND, OR, XOR, NOT, SHL and SHR (spec/42_bitwise_shift.md). -/

namespace Sys2Proof.Machine

/-- AND (R140). -/
def execAnd (rd rs1 rs2 : VReg) (s : State) : Host.Outcome State Fault Refusal :=
  .next (s.finishWrite rd (s.src rs1 &&& s.src rs2))

/-- OR (R141). -/
def execOr (rd rs1 rs2 : VReg) (s : State) : Host.Outcome State Fault Refusal :=
  .next (s.finishWrite rd (s.src rs1 ||| s.src rs2))

/-- XOR (R142). -/
def execXor (rd rs1 rs2 : VReg) (s : State) : Host.Outcome State Fault Refusal :=
  .next (s.finishWrite rd (s.src rs1 ^^^ s.src rs2))

/-- NOT (R143): all 4096 bits. -/
def execNot (rd rs1 : VReg) (s : State) : Host.Outcome State Fault Refusal :=
  .next (s.finishWrite rd (~~~ s.src rs1))

/-- SHL (R144): logical left shift by the immediate. -/
def execShl (rd rs1 : VReg) (k : Nat) (s : State) : Host.Outcome State Fault Refusal :=
  .next (s.finishWrite rd (shl4096 (s.src rs1) k))

/-- SHR (R145): logical right shift by the immediate. -/
def execShr (rd rs1 : VReg) (k : Nat) (s : State) : Host.Outcome State Fault Refusal :=
  .next (s.finishWrite rd (shr4096 (s.src rs1) k))

end Sys2Proof.Machine
end

