-- ==== Sys2Proof/Machine/Compare.lean ====
section
/-! DEFINITION. The meanings of CMP and TST (spec/43_compare_test.md). -/

namespace Sys2Proof.Machine

/-- CMP (R160): exactly one of LT, EQ and GT becomes 1. -/
def execCmp (rs1 rs2 : VReg) (s : State) : Host.Outcome State Fault Refusal :=
  .next (s.setOrder (ucmp (s.src rs1) (s.src rs2))).finishOk

/-- TST (R161). -/
def execTst (rs1 : VReg) (s : State) : Host.Outcome State Fault Refusal :=
  .next (s.setNz (nonzero (s.src rs1))).finishOk

end Sys2Proof.Machine
end

