-- ==== Sys2Proof/Machine/Construction.lean ====
section
/-! DEFINITION. The meaning of LDI (spec/40_construction.md). -/

namespace Sys2Proof.Machine

/-- LDI (R100): V[RD] gets the captured ARG, zero-extended. -/
def execLdi (rd : VReg) (s : State) : Host.Outcome State Fault Refusal :=
  .next (s.finishWrite rd (zext4096 s.srcArg))

end Sys2Proof.Machine
end

