-- ==== Sys2Proof/Machine/NumberTheory.lean ====
section
/-! DEFINITION. The meanings of MODEXP and ISPRIME (spec/44_number_theory.md). -/

namespace Sys2Proof.Machine

/-- MODEXP (R171): base RS1, exponent RS2, modulus RS3; ZERO_MODULUS for the zero modulus (R206). -/
def execModexp (rd rs1 rs2 rs3 : VReg) (s : State) : Host.Outcome State Fault Refusal :=
  if nonzero (s.src rs3) then .next (s.finishWrite rd (modexp4096 (s.src rs1) (s.src rs2) (s.src rs3)))
  else .next (s.finishError .zeroModulus)

/-- ISPRIME (R176): PRIME gets the answer; BAD_ROUNDS above 5 rounds, whatever the operand (R208). -/
def execIsprime (rs1 : VReg) (rounds : Nat) (s : State) : Host.Outcome State Fault Refusal :=
  if Config.maxRounds < rounds then .next (s.finishError .badRounds)
  else .next (s.setPrime (isprime4096 (s.src rs1) rounds)).finishOk

end Sys2Proof.Machine
end

