-- ==== Sys2Proof/Machine/Lifecycle.lean ====
section
/-! DEFINITION. How the machine moves: the engine's completion step, one event of the agenda, and how a command word is placed
for the very next step (spec/60_exceptions.md R200 to R202). -/

namespace Sys2Proof.Machine

/-- The engine's completion step (R202): decode CMDR; an illegal word completes with ILLEGAL_CMD (R207), any other performs its
command. -/
def complete (s : State) : Host.Outcome State Fault Refusal :=
  match decode s.cmdr with
  | .error _ => .next (s.finishError .illegalCmd)
  | .ok i => exec i s

/-- The engine has the turn: it completes the command in flight, or idles (R200, R221). -/
def engineTurn (s : State) : Host.Outcome State Fault Refusal :=
  if s.status.busy then complete s else .next s

/-- One event (R11, R62). When no event is left the engine has the turn, so a command in flight completes (R202: completion is
enabled at every BUSY state and fairly taken; DESIGN CHOICE, log entry 1). -/
def nextEvent (s : State) : Host.Outcome State Fault Refusal :=
  match s.agenda with
  | [] => engineTurn s
  | .engine :: rest => engineTurn { s with agenda := rest }
  | .host t :: rest => .next (State.transact t { s with agenda := rest })
  | .reset presented :: rest => .next (State.hardReset presented { s with agenda := rest })

/-- The command word `c` has just been accepted and the engine has the turn (DESIGN CHOICE, log entry 1). -/
def State.placeCommand (c : Word) (s : State) : State :=
  { s.accept c with agenda := .engine :: s.agenda }

end Sys2Proof.Machine
end

