-- ==== Sys2Proof/Machine/Step.lean ====
section
/-! DEFINITION. The step of the machine, and the placing of a command word for it. -/

namespace Sys2Proof.Machine

/-- One step: the next event of the agenda (Machine/Lifecycle.lean). -/
def step (s : State) : Host.Outcome State Fault Refusal := nextEvent s

/-- `s` with the command word of bits `w` accepted, so that the very next step is its completion (R201, R202; log entry 1). -/
def State.withFetchWord (s : State) (nbits w : Nat) : State := s.placeCommand (BitVec.ofNat 64 (w % 2 ^ nbits))

end Sys2Proof.Machine
end

