-- ==== Sys2Proof/Machine/Engines.lean ====
section
/-! DEFINITION. The word-level engines of spec/00_scope.md R2, as the pseudocode of their rules runs them: the carry-propagate
adder and subtractor, the schoolbook multiplier, the long-division engine, and the word-wise forms of the bitwise, shift,
compare and zero-test commands. Laws/Engines.lean proves that each computes its function of Machine/Value.lean. -/

namespace Sys2Proof.Machine

/-- `lo64(t) = t[63:0]` (R14). -/
def lo64 (t : BitVec 128) : Word := t.extractLsb' 0 64

/-- `hi64(t) = t[127:64]` (R14). -/
def hi64 (t : BitVec 128) : Word := t.extractLsb' 64 64

/-- `addc64(x, y, cin)`: the low word and the carry of the 128-bit sum (R110). -/
def addc64 (x y cin : Word) : Word × Word :=
  let t := BitVec.ofNat 128 (x.toNat + y.toNat + cin.toNat)
  (lo64 t, hi64 t)

/-- `subb64(x, y, bin)`: the low word of the difference modulo 2^128, and the borrow (R110). -/
def subb64 (x y bin : Word) : Word × Word :=
  let t := x.setWidth 128 - y.setWidth 128 - bin.setWidth 128
  (lo64 t, if x.toNat < y.toNat + bin.toNat then 1#64 else 0#64)

/-- `mulacc64(r, x, y, c)`: the low and the high word of `r + x·y + c` (R110). -/
def mulacc64 (r x y c : Word) : Word × Word :=
  let t := BitVec.ofNat 128 (r.toNat + x.toNat * y.toNat + c.toNat)
  (lo64 t, hi64 t)

/-- The adder's loop (R111): `n` words still to go, the next one `w`, carry `c` into it. -/
def addLoop (a b : Value) : Nat → Nat → Value → Word → Value
  | 0, _, r, _ => r
  | n + 1, w, r, c =>
    let t := addc64 (word a w) (word b w) c
    addLoop a b n (w + 1) (setWord r w t.1) t.2

/-- The carry-propagate adder `add4096` (R111); the final carry is discarded. -/
def engineAdd (a b : Value) : Value := addLoop a b 64 0 0#4096 0#64

/-- The subtractor's loop (R112): `n` words still to go, the next one `w`, borrow `bw` out of it. -/
def subLoop (a b : Value) : Nat → Nat → Value → Word → Value
  | 0, _, r, _ => r
  | n + 1, w, r, bw =>
    let t := subb64 (word a w) (word b w) bw
    subLoop a b n (w + 1) (setWord r w t.1) t.2

/-- The carry-propagate subtractor `sub4096` (R112); the final borrow is discarded. -/
def engineSub (a b : Value) : Value := subLoop a b 64 0 0#4096 0#64

/-- The multiplier's inner loop (R113): multiply-accumulate `x · word(b, j)` into word `i + j`, for `n` more values of `j`.
The carry left when it ends would land in word 64 and is dropped. -/
def mulInner (x : Word) (b : Value) (i : Nat) : Nat → Nat → Value → Word → Value
  | 0, _, r, _ => r
  | n + 1, j, r, c =>
    let t := mulacc64 (word r (i + j)) x (word b j) c
    mulInner x b i n (j + 1) (setWord r (i + j) t.1) t.2

/-- The multiplier's outer loop (R113): an all-zero multiplicand word skips its inner loop. -/
def mulOuter (a b : Value) : Nat → Nat → Value → Value
  | 0, _, r => r
  | n + 1, i, r =>
    mulOuter a b n (i + 1) (if word a i = 0#64 then r else mulInner (word a i) b i (64 - i) 0 r 0#64)

/-- The schoolbook multiplier `mul4096` (R113). -/
def engineMul (a b : Value) : Value := mulOuter a b 64 0 0#4096

/-- The long-division loop (R116): `n` dividend bits still to go, the next one bit `n − 1`. -/
def divLoop (a b : Value) : Nat → Value → Value → Value × Value
  | 0, q, r => (q, r)
  | i + 1, q, r =>
    let r' := (r <<< 1) ||| (a.extractLsb' i 1).setWidth 4096
    if b.toNat ≤ r'.toNat then divLoop a b i (q ||| (1#4096 <<< i)) (engineSub r' b)
    else divLoop a b i q r'

/-- The long-division engine `divmod4096` (R116), for a nonzero divisor. -/
def engineDivmod (a b : Value) : Value × Value := divLoop a b 4096 0#4096 0#4096

/-- Words `0` to `n − 1` of `v` set to `f 0`, `f 1`, …: the loops `for w in 0 to 63: word(r, w) <- …` of R140 to R145. -/
def setWords (f : Nat → Word) : Nat → Value → Value
  | 0, v => v
  | n + 1, v => setWord (setWords f n v) n (f n)

/-- The word-wise AND of R140. -/
def engineAnd (a b : Value) : Value := setWords (fun w => word a w &&& word b w) 64 0#4096

/-- The word-wise OR of R141. -/
def engineOr (a b : Value) : Value := setWords (fun w => word a w ||| word b w) 64 0#4096

/-- The word-wise XOR of R142. -/
def engineXor (a b : Value) : Value := setWords (fun w => word a w ^^^ word b w) 64 0#4096

/-- The word-wise complement of R143. -/
def engineNot (a : Value) : Value := setWords (fun w => word a w ^^^ 0xFFFFFFFFFFFFFFFF#64) 64 0#4096

/-- Word `w` of the left shift (R144): a whole-word shift by `k >> 6` and a sub-word shift by `k & 63`. -/
def shlWord (a : Value) (k w : Nat) : Word :=
  let whole := k / 64
  let s := k % 64
  let hi := if whole ≤ w then word a (w - whole) else 0#64
  let lo := if whole + 1 ≤ w then word a (w - whole - 1) else 0#64
  if s = 0 then hi else (hi <<< s) ||| (lo >>> (64 - s))

/-- The left shifter of R144. -/
def engineShl (a : Value) (k : Nat) : Value :=
  if 4096 ≤ k then 0#4096 else setWords (shlWord a k) 64 0#4096

/-- Word `w` of the right shift (R145). -/
def shrWord (a : Value) (k w : Nat) : Word :=
  let whole := k / 64
  let s := k % 64
  let lo := if w + whole ≤ 63 then word a (w + whole) else 0#64
  let hi := if w + whole + 1 ≤ 63 then word a (w + whole + 1) else 0#64
  if s = 0 then lo else (lo >>> s) ||| (hi <<< (64 - s))

/-- The right shifter of R145. -/
def engineShr (a : Value) (k : Nat) : Value :=
  if 4096 ≤ k then 0#4096 else setWords (shrWord a k) 64 0#4096

/-- The comparator of R160: words from `n − 1` down to 0, the first that differ decide. -/
def ucmpLoop (a b : Value) : Nat → Ordering
  | 0 => .eq
  | w + 1 =>
    if word a w < word b w then .lt
    else if word b w < word a w then .gt
    else ucmpLoop a b w

/-- The comparator `ucmp` of R160, most-significant word first. -/
def engineUcmp (a b : Value) : Ordering := ucmpLoop a b 64

/-- Some word of `a` below word `n` is not 0. -/
def nonzeroLoop (a : Value) : Nat → Bool
  | 0 => false
  | w + 1 => word a w != 0#64 || nonzeroLoop a w

/-- The zero test `nonzero` of R161. -/
def engineNonzero (a : Value) : Bool := nonzeroLoop a 64

end Sys2Proof.Machine
end

