-- ==== Sys2Proof/Safety.lean ====
section
/-! DEFINITION. What holds of the machine in every safe run, in the terms the claims use. Laws and obligations state that reset
has it and that every step keeps it. -/

namespace Sys2Proof.Machine

/-- The hidden state and STATUS fit together. A state that breaks one of these is reached by no run. -/
structure State.Consistent (s : State) : Prop where
  /-- PEND is held exactly while BUSY = 1, and the snapshot in it equals the live registers (R29, R201). -/
  pend_eq : s.pend = if s.status.busy then some { cmd := s.cmdr, regs := s.regs, arg := s.arg } else none
  /-- While BUSY = 1, DONE = 0 (R56). -/
  busy_not_done : s.status.busy = true → s.status.done = false
  /-- ERR is 1 only after a completion (R25, R203). -/
  err_done : s.status.err = true → s.status.done = true
  /-- ERRCODE is nonzero exactly when ERR is 1 (R203, R204, R211). -/
  err_code : s.status.err = true ↔ s.status.errcode ≠ .none
  /-- At most one of LT, EQ and GT is 1: all three are 0 until the first CMP, then exactly one is 1 (R26, R33). -/
  one_order : ¬ (s.status.lt = true ∧ s.status.eq = true) ∧ ¬ (s.status.lt = true ∧ s.status.gt = true) ∧
    ¬ (s.status.eq = true ∧ s.status.gt = true)
  /-- With BUSY = 0 and DONE = 0 no command has been accepted since reset, so STATUS and CMDR have their reset values (R25, R33). -/
  untouched : s.status.busy = false → s.status.done = false → s.status = Status.reset ∧ s.cmdr = 0#64

/-- From `s` to `t` a command completed with success and wrote `v` to V[rd] (R211): everything else the host can see, the flags
and BERR among it, is as it was. (PEND and the fields for the world outside are `Obligations.CompletionFrame`.) -/
structure WroteRegister (rd : VReg) (v : Value) (s t : State) : Prop where
  regs_eq : t.regs = s.regs.set rd.val v rd.isLt
  arg_eq : t.arg = s.arg
  cmdr_eq : t.cmdr = s.cmdr
  status_eq : t.status = { s.status with err := false, errcode := .none, done := true, busy := false }

/-- From `s` to `t` a command completed with success and wrote no register but flags, to those of `f` (R211). -/
structure WroteFlags (f : Status) (s t : State) : Prop where
  regs_eq : t.regs = s.regs
  arg_eq : t.arg = s.arg
  cmdr_eq : t.cmdr = s.cmdr
  status_eq : t.status = { f with err := false, errcode := .none, done := true, busy := false }

/-- From `s` to `t` a command completed with the error `code` (R203): four STATUS fields changed, and nothing else the host can
see. -/
structure EndedInError (code : ErrCode) (s t : State) : Prop where
  regs_eq : t.regs = s.regs
  arg_eq : t.arg = s.arg
  cmdr_eq : t.cmdr = s.cmdr
  status_eq : t.status = { s.status with err := true, errcode := code, done := true, busy := false }

/-- The value register a command writes when it succeeds: all but ISPRIME, CMP and TST have one (R23, R211). -/
def destination : Instr → Option VReg
  | .add rd _ _ => some rd
  | .sub rd _ _ => some rd
  | .mul rd _ _ => some rd
  | .div rd _ _ => some rd
  | .mod rd _ _ => some rd
  | .modexp rd _ _ _ => some rd
  | .isprime _ _ => none
  | .and rd _ _ => some rd
  | .or rd _ _ => some rd
  | .xor rd _ _ => some rd
  | .not rd _ => some rd
  | .shl rd _ _ => some rd
  | .shr rd _ _ => some rd
  | .cmp _ _ => none
  | .tst _ => none
  | .ldi rd => some rd

end Sys2Proof.Machine
end

