-- ==== Sys2Proof/Certificates/Slice0/Obligations.lean ====
section
/-! DEFINITION. The statements for the provers, from the numbered rules of the spec. A command in flight is a state whose PEND is
`some p` (R29); its operands are `p`'s. What the host, the engine or `rst` does next stands at the head of `agenda` (log entry
1), and the data a read returns is put at the end of `received` (log entry 2): both are the model's own record of the world
outside, not hardware. -/

open Sys2Proof Sys2Proof.Machine

/-! ### Reset -/

/-- R33: every piece of state after reset; ID reads its constant. -/
def Obligations.ResetStateHoldsSpecValues : Prop :=
  (∀ r : VReg, ∀ w, w < 64 → word State.reset.regs[r] w = 0#64) ∧ State.reset.arg = 0#64 ∧ State.reset.cmdr = 0#64 ∧
  State.reset.status =
    { busy := false, done := false, err := false, berr := false, errcode := .none,
      lt := false, eq := false, gt := false, nz := false, prime := false } ∧
  statusWord State.reset.status = 0#64 ∧ State.reset.pend = none ∧
  State.portData 0x0000#16 State.reset = 0x4F50524940401001#64

/-- R230, R231: `rst` at a clock edge gives every piece of hardware state its reset value, whatever was in flight and whatever
transaction was presented with it: the command does not complete, and no error is reported. -/
def Obligations.ResetAbandonsWhateverWasInFlight : Prop :=
  ∀ (s : State) (presented : Option Transaction) (rest : List Event), s.agenda = .reset presented :: rest →
    ∃ t, step s = .next t ∧
      (∀ r : VReg, t.regs[r] = 0#4096) ∧ t.arg = 0#64 ∧ t.cmdr = 0#64 ∧ statusWord t.status = 0#64 ∧
      t.status = State.reset.status ∧ t.pend = none

/-- R233: a transaction presented while `rst` is 1 leaves the same hardware state as none, and a read then returns 0. That the
record of the world outside goes on over a reset (the events still to come, the data already returned, the count of draws) is
the model's choice (log entry 8). -/
def Obligations.TransactionsDuringResetHaveNoEffect : Prop :=
  ∀ (s : State) (presented : Option Transaction) (rest : List Event), s.agenda = .reset presented :: rest →
    ∃ t, step s = .next t ∧
      step { s with agenda := .reset none :: rest } = .next { t with received := s.received } ∧
      t.agenda = rest ∧ t.draws = s.draws ∧
      t.received = match presented with
        | some (.read _) => s.received ++ [0#64]
        | some (.write _ _) => s.received
        | none => s.received

/-- The invariant of Safety.lean holds at reset. -/
def Obligations.ResetStateIsConsistent : Prop := State.reset.Consistent

/-- The invariant of Safety.lean is kept by every step from every state that has it: PEND is held exactly while BUSY = 1 and
equals the live registers (R29, R201), BUSY excludes DONE (R56), ERR and ERRCODE agree (R203, R204, R211), at most one of LT,
EQ and GT is 1 (R26), and an untouched machine still shows its reset STATUS (R25, R33). That PEND is empty while BUSY = 0 is
deduced (log entry 6). -/
def Obligations.StepKeepsConsistency : Prop :=
  ∀ s t : State, s.Consistent → step s = .next t → t.Consistent

/-! ### Decoding -/

/-- Sample command words of the spec decode as the commands they stand for, and the spec's illegal samples as illegal. -/
def Obligations.SpecCommandWordsDecode : Prop :=
  decode 0x0000000000021301#64 = .ok (.add 3 1 2) ∧ decode 0x0000000000021302#64 = .ok (.sub 3 1 2) ∧
  decode 0x0000000000210306#64 = .ok (.modexp 3 0 1 2) ∧ decode 0x0000000500001007#64 = .ok (.isprime 1 5) ∧
  decode 0x00000FFF00001214#64 = .ok (.shl 2 1 4095) ∧ decode 0x0000000000021018#64 = .ok (.cmp 1 2) ∧
  decode 0x0000000000001019#64 = .ok (.tst 1) ∧ decode 0x0000000000000120#64 = .ok (.ldi 1) ∧
  decode 0x0000000000000000#64 = .error .reservedOpcode ∧ decode 0x0000000001021301#64 = .error .nonzeroUnusedField ∧
  decode 0x0000000000021118#64 = .error .nonzeroUnusedField ∧ decode 0xFFFFFFFFFFFFFFFF#64 = .error .reservedOpcode

/-- Decoding an encoded well-formed command gives it back, whatever its operands: no bit of an encoding is dropped. -/
def Obligations.EncodeThenDecodeGivesTheCommand : Prop :=
  ∀ i : Instr, i.wellFormed = true → decode (encode i) = .ok i

/-- A word that decodes as a command is that command's encoding, and the command is well formed: each accepted word has one
meaning, and no bit of it is ignored. -/
def Obligations.DecodeThenEncodeGivesTheWord : Prop :=
  ∀ (c : Word) (i : Instr), decode c = .ok i → i.wellFormed = true ∧ encode i = c

/-- R85, R88: the decision is total. A word matches at most one row, it is a command exactly when it matches one, and a word
that matches none is illegal. -/
def Obligations.EveryWordMatchesOneRowOrIsIllegal : Prop :=
  ∀ c : Word,
    (∀ row ∈ opcodeTable, ∀ row' ∈ opcodeTable, c &&& row.mask = row.pattern → c &&& row'.mask = row'.pattern →
      row.pattern = row'.pattern) ∧
    ((∃ i, decode c = .ok i) ↔ ∃ row ∈ opcodeTable, c &&& row.mask = row.pattern) ∧
    ((∃ e, decode c = .error e) ↔ ∀ row ∈ opcodeTable, c &&& row.mask ≠ row.pattern)

/-- R87: a word with a reserved OP is illegal, the all-zero word among them, and completes with ILLEGAL_CMD. -/
def Obligations.ReservedOpcodesAreIllegal : Prop :=
  ∀ c : Word,
    (let op := (c.extractLsb' 0 8).toNat
     op = 0x00 ∨ (0x08 ≤ op ∧ op ≤ 0x0F) ∨ op = 0x16 ∨ op = 0x17 ∨ (0x1A ≤ op ∧ op ≤ 0x1F) ∨ (0x21 ≤ op ∧ op ≤ 0xFF)) →
    decode c = .error .reservedOpcode ∧
    ∀ s : State, s.cmdr = c → s.status.busy = true → s.agenda = [] →
      ∃ t, step s = .next t ∧ EndedInError .illegalCmd s t

/-- R86 with the table of R84, written out here as (OP, RD used, RS1 used, RS2 used, RS3 used, IMM used): a known OP with a
nonzero RSV or a nonzero field its row does not use is illegal, and completes with ILLEGAL_CMD. -/
def Obligations.NonzeroUnusedFieldsAreIllegal : Prop :=
  ∀ (op : Nat) (rd rs1 rs2 rs3 imm : Bool),
    (op, rd, rs1, rs2, rs3, imm) ∈
      [(0x01, true, true, true, false, false), (0x02, true, true, true, false, false),
       (0x03, true, true, true, false, false), (0x04, true, true, true, false, false),
       (0x05, true, true, true, false, false), (0x06, true, true, true, true, false),
       (0x07, false, true, false, false, true), (0x10, true, true, true, false, false),
       (0x11, true, true, true, false, false), (0x12, true, true, true, false, false),
       (0x13, true, true, false, false, false), (0x14, true, true, false, false, true),
       (0x15, true, true, false, false, true), (0x18, false, true, true, false, false),
       (0x19, false, true, false, false, false), (0x20, true, false, false, false, false)] →
    ∀ c : Word, (c.extractLsb' 0 8).toNat = op →
      (c.extractLsb' 24 8 ≠ 0#8 ∨ (rd = false ∧ c.extractLsb' 8 4 ≠ 0#4) ∨ (rs1 = false ∧ c.extractLsb' 12 4 ≠ 0#4) ∨
        (rs2 = false ∧ c.extractLsb' 16 4 ≠ 0#4) ∨ (rs3 = false ∧ c.extractLsb' 20 4 ≠ 0#4) ∨
        (imm = false ∧ c.extractLsb' 32 32 ≠ 0#32)) →
      decode c = .error .nonzeroUnusedField ∧
      ∀ s : State, s.cmdr = c → s.status.busy = true → s.agenda = [] →
        ∃ t, step s = .next t ∧ EndedInError .illegalCmd s t

/-! ### The lifecycle of a command -/

/-- A step with a command in flight and the engine's turn runs the decoded command: `exec` of it, on the state past the turn
(R202). With no command in flight the engine's turn keeps every piece of state (R221). -/
def Obligations.EngineTurnRunsTheDecodedCommand : Prop :=
  ∀ s : State, (s.agenda = [] ∨ ∃ rest, s.agenda = .engine :: rest) →
    (∀ i : Instr, s.status.busy = true → decode s.cmdr = .ok i → step s = exec i { s with agenda := s.agenda.tail }) ∧
    (s.status.busy = false → step s = .next { s with agenda := s.agenda.tail })

/-- A command word placed for the next step runs next, with the live registers as its operands (log entry 1). -/
def Obligations.PlacedCommandWordRunsNext : Prop :=
  ∀ (s : State) (c : Word) (i : Instr), decode c = .ok i →
    step (s.withFetchWord 64 c.toNat) = exec i { s with
      cmdr := c
      pend := some { cmd := c, regs := s.regs, arg := s.arg }
      status := { s.status with busy := true, done := false, err := false, berr := false, errcode := .none } }

/-- R201: a CMD write while BUSY = 0 is accepted, whatever the word; a CMD write while BUSY = 1 is not. -/
def Obligations.CommandWriteIsAcceptedWhenIdle : Prop :=
  ∀ (s : State) (c : Word) (rest : List Event), s.agenda = .host (.write 0x0008#16 c) :: rest →
    step s = if s.status.busy then
        .next { s with agenda := rest, status := { s.status with berr := true } }
      else
        .next { s with
          agenda := rest
          cmdr := c
          pend := some { cmd := c, regs := s.regs, arg := s.arg }
          status := { s.status with busy := true, done := false, err := false, berr := false, errcode := .none } }

/-- R207, R203: with the engine's turn, a command word that matches no row completes with ILLEGAL_CMD and changes four STATUS
fields only. -/
def Obligations.IllegalCommandCompletesWithIllegalCmd : Prop :=
  ∀ s : State, s.status.busy = true → (s.agenda = [] ∨ ∃ rest, s.agenda = .engine :: rest) →
    (∀ row ∈ opcodeTable, s.cmdr &&& row.mask ≠ row.pattern) →
    ∃ t, step s = .next t ∧ EndedInError .illegalCmd s t

/-- R200: acceptance alone moves IDLE to BUSY; completion and reset alone move BUSY to IDLE. -/
def Obligations.BusyChangesOnlyByAcceptanceCompletionOrReset : Prop :=
  ∀ s t : State, step s = .next t →
    ((s.status.busy = false ∧ t.status.busy = true) ↔
      (s.status.busy = false ∧ ∃ c rest, s.agenda = .host (.write 0x0008#16 c) :: rest)) ∧
    ((s.status.busy = true ∧ t.status.busy = false) ↔
      (s.status.busy = true ∧ (s.agenda = [] ∨ (∃ rest, s.agenda = .engine :: rest) ∨
        ∃ presented rest, s.agenda = .reset presented :: rest)))

/-- No step faults and none is refused. This is deduced (log entry 10): the spec names no event at which the hardware stops, and it
gives every one an effect: reads (R52, R56, R57, R59), writes (R52, R54, R57, R58), acceptance (R201), completion (R88, R202,
R203, R211), the idle engine (R221) and reset (R230, R233). -/
def Obligations.EveryStepAnswersANextState : Prop := ∀ s : State, ∃ t, step s = .next t

/-- Every command completes (R202, R245): with a command in flight and no reset to come, within one step more than the agenda has
events the machine is IDLE with DONE = 1 and CMDR still holding that command's word. And from any state, once the agenda is
used up and one step more is taken, the machine is IDLE (a reset also ends a BUSY period, but then the command does not
complete, R231). That the engine has the turn when the agenda is used up is the model's form of weak fairness (log entry 1). -/
def Obligations.EveryCommandCompletesInBoundedSteps : Prop :=
  (∀ s : State, s.status.busy = true → (∀ presented, Event.reset presented ∉ s.agenda) →
    ∃ k t, k ≤ s.agenda.length + 1 ∧ Sys2Proof.core.run k s = .next t ∧
      t.status.busy = false ∧ t.status.done = true ∧ t.cmdr = s.cmdr) ∧
  (∀ s : State, ∃ k t, k ≤ s.agenda.length + 1 ∧ Sys2Proof.core.run k s = .next t ∧ t.status.busy = false ∧ t.agenda = [])

/-- R58, R62: whatever transactions the host performs between acceptance and completion, in any number, the command completes
with the same value registers, ARG, CMDR and STATUS as with none of them, BERR apart. -/
def Obligations.HostCannotDisturbACommandInFlight : Prop :=
  ∀ (s : State) (ts : List Transaction) (rest : List Event), s.status.busy = true →
    s.agenda = ts.map Event.host ++ .engine :: rest →
    ∃ t u, Sys2Proof.core.run (ts.length + 1) s = .next t ∧ step { s with agenda := .engine :: rest } = .next u ∧
      t.regs = u.regs ∧ t.arg = u.arg ∧ t.cmdr = u.cmdr ∧ t.pend = u.pend ∧ t.agenda = u.agenda ∧
      { t.status with berr := u.status.berr } = u.status

/-! ### The register port -/

/-- R58: while BUSY = 1 a write to CMD, ARG or any window offset changes nothing but BERR, which it sets; BERR then stays 1 until
the next acceptance, which clears it (or reset). -/
def Obligations.BusyWritesOnlySetBerr : Prop :=
  (∀ (s : State) (off : BitVec 16) (d : Word) (rest : List Event), s.status.busy = true →
    s.agenda = .host (.write off d) :: rest →
    (off = 0x0008#16 ∨ off = 0x0018#16 ∨
      ∃ v w : Nat, v < 16 ∧ w < 64 ∧ off = BitVec.ofNat 16 (0x1000 + 0x200 * v + 8 * w)) →
    step s = .next { s with agenda := rest, status := { s.status with berr := true } }) ∧
  (∀ s t : State, s.status.berr = true → step s = .next t →
    t.status.berr = true ∨ (s.status.busy = false ∧ ∃ c rest, s.agenda = .host (.write 0x0008#16 c) :: rest) ∨
      ∃ presented rest, s.agenda = .reset presented :: rest) ∧
  (∀ (s : State) (c : Word) (rest : List Event), s.status.busy = false → s.agenda = .host (.write 0x0008#16 c) :: rest →
    ∃ t, step s = .next t ∧ t.status.berr = false)

/-- R210: BERR is raised only by an ignored write, and cleared only by the next acceptance or by reset. -/
def Obligations.BerrIsClearedOnlyByAcceptanceOrReset : Prop :=
  ∀ s t : State, step s = .next t →
    (s.status.berr = true → t.status.berr = false →
      (s.status.busy = false ∧ ∃ c rest, s.agenda = .host (.write 0x0008#16 c) :: rest) ∨
      ∃ presented rest, s.agenda = .reset presented :: rest) ∧
    (s.status.berr = false → t.status.berr = true →
      s.status.busy = true ∧ ∃ off d rest, s.agenda = .host (.write off d) :: rest)

/-- R52, R57: a misaligned write, and a write to ID, STATUS or a reserved offset, changes no state, whatever BUSY is; a misaligned
read and a read of a reserved offset return 0. -/
def Obligations.MisalignedAndReservedAccessesDoNothing : Prop :=
  ∀ (s : State) (off : BitVec 16) (rest : List Event),
    (∀ d : Word, s.agenda = .host (.write off d) :: rest →
      (off.toNat % 8 ≠ 0 ∨ off.toNat = 0x0000 ∨ off.toNat = 0x0010 ∨ (0x0020 ≤ off.toNat ∧ off.toNat ≤ 0x0FF8) ∨
        (0x3000 ≤ off.toNat ∧ off.toNat ≤ 0xFFF8)) →
      step s = .next { s with agenda := rest }) ∧
    (s.agenda = .host (.read off) :: rest →
      (off.toNat % 8 ≠ 0 ∨ (0x0020 ≤ off.toNat ∧ off.toNat ≤ 0x0FF8) ∨ (0x3000 ≤ off.toNat ∧ off.toNat ≤ 0xFFF8)) →
      step s = .next { s with agenda := rest, received := s.received ++ [0#64] })

/-- R56: reads of ID, CMD, STATUS and ARG are exact and have no side effect whatever BUSY is, and so are window reads while
BUSY = 0; in a consistent state STATUS reads BUSY = 1 and DONE = 0 while a command is in flight. -/
def Obligations.ReadsAreExactAndSideEffectFree : Prop :=
  ∀ (s : State) (off : BitVec 16) (rest : List Event), s.agenda = .host (.read off) :: rest →
    (off = 0x0000#16 → step s = .next { s with agenda := rest, received := s.received ++ [0x4F50524940401001#64] }) ∧
    (off = 0x0008#16 → step s = .next { s with agenda := rest, received := s.received ++ [s.cmdr] }) ∧
    (off = 0x0010#16 → step s = .next { s with agenda := rest, received := s.received ++ [statusWord s.status] }) ∧
    (off = 0x0018#16 → step s = .next { s with agenda := rest, received := s.received ++ [s.arg] }) ∧
    (∀ (v : VReg) (w : Nat), w < 64 → off = BitVec.ofNat 16 (0x1000 + 0x200 * v.val + 8 * w) → s.status.busy = false →
      step s = .next { s with agenda := rest, received := s.received ++ [word s.regs[v] w] }) ∧
    (s.Consistent → s.status.busy = true →
      (statusWord s.status).getLsbD 0 = true ∧ (statusWord s.status).getLsbD 1 = false)

/-- R25: the bits of STATUS. -/
def Obligations.StatusWordHasTheSpecLayout : Prop :=
  ∀ st : Status,
    (statusWord st).getLsbD 0 = st.busy ∧ (statusWord st).getLsbD 1 = st.done ∧ (statusWord st).getLsbD 2 = st.err ∧
    (statusWord st).getLsbD 3 = st.berr ∧
    (statusWord st).extractLsb' 4 4 = (match st.errcode with
      | .none => 0#4
      | .divByZero => 1#4
      | .zeroModulus => 2#4
      | .illegalCmd => 3#4
      | .badRounds => 4#4) ∧
    (statusWord st).getLsbD 8 = st.lt ∧ (statusWord st).getLsbD 9 = st.eq ∧ (statusWord st).getLsbD 10 = st.gt ∧
    (statusWord st).getLsbD 11 = st.nz ∧ (statusWord st).getLsbD 12 = st.prime ∧
    (statusWord st).extractLsb' 13 51 = 0#51

/-- R59: a window read while BUSY = 1 returns some value and changes nothing of the hardware. That the model's count of draws then
advances, so that the next such read may return another value, is the model's choice (log entry 3). -/
def Obligations.BusyWindowReadReturnsSomeValueOnly : Prop :=
  ∀ (s : State) (v : VReg) (w : Nat) (rest : List Event), w < 64 → s.status.busy = true →
    s.agenda = .host (.read (BitVec.ofNat 16 (0x1000 + 0x200 * v.val + 8 * w))) :: rest →
    ∃ x : Word, step s = .next { s with agenda := rest, received := s.received ++ [x], draws := s.draws + 1 }

/-- R54: in the window, an aligned offset names word `((off − 0x1000) >> 3) & 63` of V[(off − 0x1000) >> 9], which is the inverse
of `0x1000 + 0x200·v + 8·w`. With BUSY = 0 a read returns that word, and a write replaces it and leaves the other 63 words,
and every other register, as they were. -/
def Obligations.WindowAccessesMoveExactlyOneWord : Prop :=
  (∀ off : Nat, off % 8 = 0 → 0x1000 ≤ off → off ≤ 0x2FF8 →
    off = 0x1000 + 0x200 * ((off - 0x1000) / 2 ^ 9) + 8 * ((off - 0x1000) / 2 ^ 3 % 64) ∧ (off - 0x1000) / 2 ^ 9 < 16) ∧
  (∀ (s : State) (v : VReg) (w : Nat) (rest : List Event), w < 64 → s.status.busy = false →
    s.agenda = .host (.read (BitVec.ofNat 16 (0x1000 + 0x200 * v.val + 8 * w))) :: rest →
    step s = .next { s with agenda := rest, received := s.received ++ [word s.regs[v] w] }) ∧
  (∀ (s : State) (v : VReg) (w : Nat) (d : Word) (rest : List Event), w < 64 → s.status.busy = false →
    s.agenda = .host (.write (BitVec.ofNat 16 (0x1000 + 0x200 * v.val + 8 * w)) d) :: rest →
    ∃ t, step s = .next t ∧
      (∀ (v' : VReg) (w' : Nat), w' < 64 →
        word t.regs[v'] w' = if v' = v ∧ w' = w then d else word s.regs[v'] w') ∧
      t = { s with agenda := rest, regs := t.regs })

/-- R24: a host write of ARG while BUSY = 0 sets it and nothing else; only such a write and reset change ARG. -/
def Obligations.ArgChangesOnlyByHostWriteOrReset : Prop :=
  (∀ (s : State) (d : Word) (rest : List Event), s.status.busy = false →
    s.agenda = .host (.write 0x0018#16 d) :: rest → step s = .next { s with agenda := rest, arg := d }) ∧
  (∀ s t : State, step s = .next t → t.arg ≠ s.arg →
    (s.status.busy = false ∧ ∃ d rest, s.agenda = .host (.write 0x0018#16 d) :: rest) ∨
    ∃ presented rest, s.agenda = .reset presented :: rest)

/-- R61: no read changes the hardware's state; a write to ARG or to a window offset while BUSY = 0 is idempotent. -/
def Obligations.ReadsHaveNoSideEffectAndWritesAreIdempotent : Prop :=
  (∀ (s : State) (off : BitVec 16) (rest : List Event), s.agenda = .host (.read off) :: rest →
    ∃ t, step s = .next t ∧ t.regs = s.regs ∧ t.arg = s.arg ∧ t.cmdr = s.cmdr ∧ t.status = s.status ∧ t.pend = s.pend) ∧
  (∀ (s : State) (off : BitVec 16) (d : Word) (rest : List Event), s.status.busy = false →
    (off = 0x0018#16 ∨ ∃ v w : Nat, v < 16 ∧ w < 64 ∧ off = BitVec.ofNat 16 (0x1000 + 0x200 * v + 8 * w)) →
    s.agenda = .host (.write off d) :: .host (.write off d) :: rest →
    ∃ t, step s = .next t ∧ step t = .next { t with agenda := rest })

/-- R55: seen through a byte-addressed map, a value is one little-endian 512-byte integer. -/
def Obligations.PlatformBytesAreLittleEndian : Prop :=
  ∀ (s : State) (v : VReg) (j : Nat), j < 512 → s.status.busy = false →
    State.platformByte (BitVec.ofNat 16 (0x1000 + 0x200 * v.val + 8 * (j / 8))) (Fin.ofNat 8 j) s =
      s.regs[v].extractLsb' (8 * j) 8

/-! ### What each command does -/

/-- R111: ADD runs the carry-propagate adder on the snapshot, modulo 2^4096. -/
def Obligations.AddRunsTheCarryPropagateAdder : Prop :=
  (∀ c : Word, c &&& 0xFFFFFFFFFFF000FF#64 = 0x0000000000000001#64 →
    decode c = .ok (.add (Fin.ofNat 16 (c.toNat / 2 ^ 8)) (Fin.ofNat 16 (c.toNat / 2 ^ 12))
      (Fin.ofNat 16 (c.toNat / 2 ^ 16)))) ∧
  (∀ (s : State) (p : Pending) (rd rs1 rs2 : VReg), s.pend = some p →
    (∃ t, exec (.add rd rs1 rs2) s = .next t ∧ WroteRegister rd (engineAdd p.regs[rs1] p.regs[rs2]) s t) ∧
    (engineAdd p.regs[rs1] p.regs[rs2]).toNat = (p.regs[rs1].toNat + p.regs[rs2].toNat) % 2 ^ 4096)

/-- R112: SUB runs the carry-propagate subtractor on the snapshot, modulo 2^4096. -/
def Obligations.SubRunsTheCarryPropagateSubtractor : Prop :=
  (∀ c : Word, c &&& 0xFFFFFFFFFFF000FF#64 = 0x0000000000000002#64 →
    decode c = .ok (.sub (Fin.ofNat 16 (c.toNat / 2 ^ 8)) (Fin.ofNat 16 (c.toNat / 2 ^ 12))
      (Fin.ofNat 16 (c.toNat / 2 ^ 16)))) ∧
  (∀ (s : State) (p : Pending) (rd rs1 rs2 : VReg), s.pend = some p →
    (∃ t, exec (.sub rd rs1 rs2) s = .next t ∧ WroteRegister rd (engineSub p.regs[rs1] p.regs[rs2]) s t) ∧
    ((engineSub p.regs[rs1] p.regs[rs2]).toNat : Int) = ((p.regs[rs1].toNat : Int) - p.regs[rs2].toNat) % 2 ^ 4096)

/-- R113, R114: MUL runs the schoolbook multiplier on the snapshot, truncated modulo 2^4096. -/
def Obligations.MulRunsTheSchoolbookMultiplier : Prop :=
  (∀ c : Word, c &&& 0xFFFFFFFFFFF000FF#64 = 0x0000000000000003#64 →
    decode c = .ok (.mul (Fin.ofNat 16 (c.toNat / 2 ^ 8)) (Fin.ofNat 16 (c.toNat / 2 ^ 12))
      (Fin.ofNat 16 (c.toNat / 2 ^ 16)))) ∧
  (∀ (s : State) (p : Pending) (rd rs1 rs2 : VReg), s.pend = some p →
    (∃ t, exec (.mul rd rs1 rs2) s = .next t ∧ WroteRegister rd (engineMul p.regs[rs1] p.regs[rs2]) s t) ∧
    (engineMul p.regs[rs1] p.regs[rs2]).toNat = p.regs[rs1].toNat * p.regs[rs2].toNat % 2 ^ 4096)

/-- R117: with a nonzero divisor DIV runs the long-division engine and keeps the exact quotient; with the zero divisor it completes
with DIV_BY_ZERO, and only four STATUS fields change. -/
def Obligations.DivKeepsTheLongDivisionQuotient : Prop :=
  (∀ c : Word, c &&& 0xFFFFFFFFFFF000FF#64 = 0x0000000000000004#64 →
    decode c = .ok (.div (Fin.ofNat 16 (c.toNat / 2 ^ 8)) (Fin.ofNat 16 (c.toNat / 2 ^ 12))
      (Fin.ofNat 16 (c.toNat / 2 ^ 16)))) ∧
  (∀ (s : State) (p : Pending) (rd rs1 rs2 : VReg), s.pend = some p → p.regs[rs2].toNat ≠ 0 →
    (∃ t, exec (.div rd rs1 rs2) s = .next t ∧ WroteRegister rd (engineDivmod p.regs[rs1] p.regs[rs2]).1 s t) ∧
    (engineDivmod p.regs[rs1] p.regs[rs2]).1.toNat = p.regs[rs1].toNat / p.regs[rs2].toNat) ∧
  (∀ (s : State) (p : Pending) (rd rs1 rs2 : VReg), s.pend = some p → p.regs[rs2].toNat = 0 →
    ∃ t, exec (.div rd rs1 rs2) s = .next t ∧ EndedInError .divByZero s t)

/-- R118: with a nonzero divisor MOD runs the long-division engine and keeps the exact remainder, below the divisor; with the zero
divisor it completes with DIV_BY_ZERO, and only four STATUS fields change. -/
def Obligations.ModKeepsTheLongDivisionRemainder : Prop :=
  (∀ c : Word, c &&& 0xFFFFFFFFFFF000FF#64 = 0x0000000000000005#64 →
    decode c = .ok (.mod (Fin.ofNat 16 (c.toNat / 2 ^ 8)) (Fin.ofNat 16 (c.toNat / 2 ^ 12))
      (Fin.ofNat 16 (c.toNat / 2 ^ 16)))) ∧
  (∀ (s : State) (p : Pending) (rd rs1 rs2 : VReg), s.pend = some p → p.regs[rs2].toNat ≠ 0 →
    (∃ t, exec (.mod rd rs1 rs2) s = .next t ∧ WroteRegister rd (engineDivmod p.regs[rs1] p.regs[rs2]).2 s t) ∧
    (engineDivmod p.regs[rs1] p.regs[rs2]).2.toNat = p.regs[rs1].toNat % p.regs[rs2].toNat ∧
    (engineDivmod p.regs[rs1] p.regs[rs2]).2.toNat < p.regs[rs2].toNat) ∧
  (∀ (s : State) (p : Pending) (rd rs1 rs2 : VReg), s.pend = some p → p.regs[rs2].toNat = 0 →
    ∃ t, exec (.mod rd rs1 rs2) s = .next t ∧ EndedInError .divByZero s t)

/-- R140 to R143: AND, OR, XOR and NOT run word by word on the snapshot. -/
def Obligations.BitwiseCommandsRunWordByWord : Prop :=
  (∀ c : Word, c &&& 0xFFFFFFFFFFF000FF#64 = 0x0000000000000010#64 →
    decode c = .ok (.and (Fin.ofNat 16 (c.toNat / 2 ^ 8)) (Fin.ofNat 16 (c.toNat / 2 ^ 12))
      (Fin.ofNat 16 (c.toNat / 2 ^ 16)))) ∧
  (∀ c : Word, c &&& 0xFFFFFFFFFFF000FF#64 = 0x0000000000000011#64 →
    decode c = .ok (.or (Fin.ofNat 16 (c.toNat / 2 ^ 8)) (Fin.ofNat 16 (c.toNat / 2 ^ 12))
      (Fin.ofNat 16 (c.toNat / 2 ^ 16)))) ∧
  (∀ c : Word, c &&& 0xFFFFFFFFFFF000FF#64 = 0x0000000000000012#64 →
    decode c = .ok (.xor (Fin.ofNat 16 (c.toNat / 2 ^ 8)) (Fin.ofNat 16 (c.toNat / 2 ^ 12))
      (Fin.ofNat 16 (c.toNat / 2 ^ 16)))) ∧
  (∀ c : Word, c &&& 0xFFFFFFFFFFFF00FF#64 = 0x0000000000000013#64 →
    decode c = .ok (.not (Fin.ofNat 16 (c.toNat / 2 ^ 8)) (Fin.ofNat 16 (c.toNat / 2 ^ 12)))) ∧
  (∀ (s : State) (p : Pending) (rd rs1 rs2 : VReg), s.pend = some p →
    (∃ x : Value, (∀ w, w < 64 → word x w = word p.regs[rs1] w &&& word p.regs[rs2] w) ∧
      ∃ t, exec (.and rd rs1 rs2) s = .next t ∧ WroteRegister rd x s t) ∧
    (∃ x : Value, (∀ w, w < 64 → word x w = word p.regs[rs1] w ||| word p.regs[rs2] w) ∧
      ∃ t, exec (.or rd rs1 rs2) s = .next t ∧ WroteRegister rd x s t) ∧
    (∃ x : Value, (∀ w, w < 64 → word x w = word p.regs[rs1] w ^^^ word p.regs[rs2] w) ∧
      ∃ t, exec (.xor rd rs1 rs2) s = .next t ∧ WroteRegister rd x s t) ∧
    (∃ x : Value, (∀ w, w < 64 → word x w = word p.regs[rs1] w ^^^ 0xFFFFFFFFFFFFFFFF#64) ∧
      x.toNat = 2 ^ 4096 - 1 - p.regs[rs1].toNat ∧
      ∃ t, exec (.not rd rs1) s = .next t ∧ WroteRegister rd x s t))

/-- R144: SHL runs the whole-word and sub-word left shift on the snapshot: `nat(A) · 2^k` modulo 2^4096, for every count. -/
def Obligations.ShlRunsTheLeftShifter : Prop :=
  (∀ c : Word, c &&& 0x00000000FFFF00FF#64 = 0x0000000000000014#64 →
    decode c = .ok (.shl (Fin.ofNat 16 (c.toNat / 2 ^ 8)) (Fin.ofNat 16 (c.toNat / 2 ^ 12)) (c.toNat / 2 ^ 32))) ∧
  (∀ (s : State) (p : Pending) (rd rs1 : VReg) (k : Nat), s.pend = some p →
    (∃ t, exec (.shl rd rs1 k) s = .next t ∧ WroteRegister rd (engineShl p.regs[rs1] k) s t) ∧
    (engineShl p.regs[rs1] k).toNat = p.regs[rs1].toNat * 2 ^ k % 2 ^ 4096)

/-- R145: SHR runs the whole-word and sub-word right shift on the snapshot: `⌊nat(A) / 2^k⌋`, for every count. -/
def Obligations.ShrRunsTheRightShifter : Prop :=
  (∀ c : Word, c &&& 0x00000000FFFF00FF#64 = 0x0000000000000015#64 →
    decode c = .ok (.shr (Fin.ofNat 16 (c.toNat / 2 ^ 8)) (Fin.ofNat 16 (c.toNat / 2 ^ 12)) (c.toNat / 2 ^ 32))) ∧
  (∀ (s : State) (p : Pending) (rd rs1 : VReg) (k : Nat), s.pend = some p →
    (∃ t, exec (.shr rd rs1 k) s = .next t ∧ WroteRegister rd (engineShr p.regs[rs1] k) s t) ∧
    (engineShr p.regs[rs1] k).toNat = p.regs[rs1].toNat / 2 ^ k)

/-- R160: CMP sets exactly one of LT, EQ and GT, by the comparison of words from the most significant down, which is the numeric
order; the other flags and every register keep their values. -/
def Obligations.CmpRunsTheWordComparator : Prop :=
  (∀ c : Word, c &&& 0xFFFFFFFFFFF00FFF#64 = 0x0000000000000018#64 →
    decode c = .ok (.cmp (Fin.ofNat 16 (c.toNat / 2 ^ 12)) (Fin.ofNat 16 (c.toNat / 2 ^ 16)))) ∧
  (∀ (s : State) (p : Pending) (rs1 rs2 : VReg), s.pend = some p →
    (∃ t, exec (.cmp rs1 rs2) s = .next t ∧
      WroteFlags { s.status with
        lt := engineUcmp p.regs[rs1] p.regs[rs2] == .lt
        eq := engineUcmp p.regs[rs1] p.regs[rs2] == .eq
        gt := engineUcmp p.regs[rs1] p.regs[rs2] == .gt } s t) ∧
    (engineUcmp p.regs[rs1] p.regs[rs2] = .lt ↔ p.regs[rs1].toNat < p.regs[rs2].toNat) ∧
    (engineUcmp p.regs[rs1] p.regs[rs2] = .eq ↔ p.regs[rs1].toNat = p.regs[rs2].toNat) ∧
    (engineUcmp p.regs[rs1] p.regs[rs2] = .gt ↔ p.regs[rs2].toNat < p.regs[rs1].toNat))

/-- R161: TST sets NZ iff some word is not zero; the other flags and every register keep their values. -/
def Obligations.TstFindsANonzeroWord : Prop :=
  (∀ c : Word, c &&& 0xFFFFFFFFFFFF0FFF#64 = 0x0000000000000019#64 →
    decode c = .ok (.tst (Fin.ofNat 16 (c.toNat / 2 ^ 12)))) ∧
  (∀ (s : State) (p : Pending) (rs1 : VReg), s.pend = some p →
    (∃ t, exec (.tst rs1) s = .next t ∧ WroteFlags { s.status with nz := engineNonzero p.regs[rs1] } s t) ∧
    (engineNonzero p.regs[rs1] = true ↔ ∃ w, w < 64 ∧ word p.regs[rs1] w ≠ 0#64))

/-- R100: LDI zero-extends the captured ARG: word 0 is ARG, words 1 to 63 are 0. -/
def Obligations.LdiZeroExtendsTheCapturedArg : Prop :=
  (∀ c : Word, c &&& 0xFFFFFFFFFFFFF0FF#64 = 0x0000000000000020#64 →
    decode c = .ok (.ldi (Fin.ofNat 16 (c.toNat / 2 ^ 8)))) ∧
  (∀ (s : State) (p : Pending) (rd : VReg), s.pend = some p →
    ∃ x : Value, word x 0 = p.arg ∧ (∀ w, 1 ≤ w → w < 64 → word x w = 0#64) ∧
      ∃ t, exec (.ldi rd) s = .next t ∧ WroteRegister rd x s t)

/-- R170, R171: with the zero modulus MODEXP completes with ZERO_MODULUS, and only four STATUS fields change. With a nonzero one it
writes what the square-and-multiply loop computes. `L` is the loop, from any result, base and exponent: it ends exactly when the
exponent is zero, and a turn multiplies by the base when the exponent's low bit is 1, squares the base, reduces both, and
shifts the exponent, all on the word-level engines. -/
def Obligations.ModexpRunsSquareAndMultiply : Prop :=
  (∀ c : Word, c &&& 0xFFFFFFFFFF0000FF#64 = 0x0000000000000006#64 →
    decode c = .ok (.modexp (Fin.ofNat 16 (c.toNat / 2 ^ 8)) (Fin.ofNat 16 (c.toNat / 2 ^ 12))
      (Fin.ofNat 16 (c.toNat / 2 ^ 16)) (Fin.ofNat 16 (c.toNat / 2 ^ 20)))) ∧
  (∀ (s : State) (p : Pending) (rd rs1 rs2 rs3 : VReg), s.pend = some p → engineNonzero p.regs[rs3] = true →
    ∃ L : Value → Value → Value → Value,
      (∀ result b e, L result b e =
        if engineNonzero e then
          L (if e.getLsbD 0 then (engineDivmod (engineMul result b) p.regs[rs3]).2 else result)
            (engineDivmod (engineMul b b) p.regs[rs3]).2 (engineShr e 1)
        else result) ∧
      ∃ t, exec (.modexp rd rs1 rs2 rs3) s = .next t ∧
        WroteRegister rd (L 1#4096 (engineDivmod p.regs[rs1] p.regs[rs3]).2 p.regs[rs2]) s t) ∧
  (∀ (s : State) (p : Pending) (rd rs1 rs2 rs3 : VReg), s.pend = some p → engineNonzero p.regs[rs3] = false →
    ∃ t, exec (.modexp rd rs1 rs2 rs3) s = .next t ∧ EndedInError .zeroModulus s t)

/-- R176: up to 5 rounds ISPRIME writes PRIME with the sequencer's answer, and nothing else but the completion's STATUS fields;
above 5 it completes with BAD_ROUNDS, whatever the operand, and PRIME keeps its value. -/
def Obligations.IsprimeWritesOnlyPrime : Prop :=
  (∀ c : Word, c &&& 0x00000000FFFF0FFF#64 = 0x0000000000000007#64 →
    decode c = .ok (.isprime (Fin.ofNat 16 (c.toNat / 2 ^ 12)) (c.toNat / 2 ^ 32))) ∧
  (∀ (s : State) (p : Pending) (rs1 : VReg) (rounds : Nat), s.pend = some p → rounds ≤ 5 →
    ∃ t, exec (.isprime rs1 rounds) s = .next t ∧
      WroteFlags { s.status with prime := isprime4096 p.regs[rs1] rounds } s t) ∧
  (∀ (s : State) (rs1 : VReg) (rounds : Nat), 5 < rounds →
    ∃ t, exec (.isprime rs1 rounds) s = .next t ∧ EndedInError .badRounds s t)

/-! ### What commands leave alone -/

/-- R23: a command writes at most the register its RD field names, and only when it succeeds; CMP, TST and ISPRIME write none. -/
def Obligations.CommandsWriteOnlyTheirDestination : Prop :=
  ∀ (i : Instr) (s t : State), exec i s = .next t →
    (∀ r : VReg, destination i ≠ some r → t.regs[r] = s.regs[r]) ∧
    (t.status.err = true → t.regs = s.regs)

/-- R26: LT, EQ and GT are written by CMP alone and together, exactly one of them 1; NZ by TST alone; PRIME by ISPRIME alone; an
error completion and an acceptance write none. No command reads a flag: with other flags before it, it ends with the same
registers, the same error, and the same values in the flags it writes. Over any step a flag changes only by a successful
completion of the command that writes it, or by reset (R230). -/
def Obligations.FlagsAreWrittenOnlyByTheirCommand : Prop :=
  (∀ (i : Instr) (s t : State), exec i s = .next t →
    ((∀ rs1 rs2, i ≠ .cmp rs1 rs2) → t.status.lt = s.status.lt ∧ t.status.eq = s.status.eq ∧ t.status.gt = s.status.gt) ∧
    ((∃ rs1 rs2, i = .cmp rs1 rs2) →
      (t.status.lt = true ∧ t.status.eq = false ∧ t.status.gt = false) ∨
      (t.status.lt = false ∧ t.status.eq = true ∧ t.status.gt = false) ∨
      (t.status.lt = false ∧ t.status.eq = false ∧ t.status.gt = true)) ∧
    ((∀ rs1, i ≠ .tst rs1) → t.status.nz = s.status.nz) ∧
    ((∀ rs1 rounds, i ≠ .isprime rs1 rounds) → t.status.prime = s.status.prime) ∧
    (t.status.err = true → t.status.lt = s.status.lt ∧ t.status.eq = s.status.eq ∧ t.status.gt = s.status.gt ∧
      t.status.nz = s.status.nz ∧ t.status.prime = s.status.prime)) ∧
  (∀ (s t : State) (c : Word) (rest : List Event), s.status.busy = false →
    s.agenda = .host (.write 0x0008#16 c) :: rest → step s = .next t →
    t.status.lt = s.status.lt ∧ t.status.eq = s.status.eq ∧ t.status.gt = s.status.gt ∧ t.status.nz = s.status.nz ∧
      t.status.prime = s.status.prime) ∧
  (∀ (i : Instr) (s t t' : State) (f : Status), exec i s = .next t →
    exec i { s with status := { s.status with lt := f.lt, eq := f.eq, gt := f.gt, nz := f.nz, prime := f.prime } } = .next t' →
    t'.regs = t.regs ∧ t'.status.err = t.status.err ∧ t'.status.errcode = t.status.errcode ∧
    ((∃ rs1 rs2, i = .cmp rs1 rs2) →
      t'.status.lt = t.status.lt ∧ t'.status.eq = t.status.eq ∧ t'.status.gt = t.status.gt) ∧
    ((∃ rs1, i = .tst rs1) → t'.status.nz = t.status.nz) ∧
    ((∃ rs1 rounds, i = .isprime rs1 rounds) → t'.status.err = false → t'.status.prime = t.status.prime)) ∧
  (∀ s t : State, step s = .next t → (∀ presented rest, s.agenda ≠ .reset presented :: rest) →
    (t.status.lt ≠ s.status.lt ∨ t.status.eq ≠ s.status.eq ∨ t.status.gt ≠ s.status.gt →
      s.status.busy = true ∧ (s.agenda = [] ∨ ∃ rest, s.agenda = .engine :: rest) ∧ t.status.err = false ∧
        ∃ rs1 rs2, decode s.cmdr = .ok (.cmp rs1 rs2)) ∧
    (t.status.nz ≠ s.status.nz →
      s.status.busy = true ∧ (s.agenda = [] ∨ ∃ rest, s.agenda = .engine :: rest) ∧ t.status.err = false ∧
        ∃ rs1, decode s.cmdr = .ok (.tst rs1)) ∧
    (t.status.prime ≠ s.status.prime →
      s.status.busy = true ∧ (s.agenda = [] ∨ ∃ rest, s.agenda = .engine :: rest) ∧ t.status.err = false ∧
        ∃ rs1 rounds, decode s.cmdr = .ok (.isprime rs1 rounds)))

/-- R203, R211: every completion leaves ARG, CMDR and BERR alone, sets DONE, clears BUSY, and reports an error code exactly with
ERR. That it empties PEND is deduced (log entry 6); the fields for the world outside, which it leaves alone, are the model's
own (log entries 1, 2 and 3). -/
def Obligations.CompletionFrame : Prop :=
  ∀ (i : Instr) (s t : State), exec i s = .next t →
    t.arg = s.arg ∧ t.cmdr = s.cmdr ∧ t.status.berr = s.status.berr ∧ t.agenda = s.agenda ∧ t.received = s.received ∧
    t.draws = s.draws ∧ t.pend = none ∧ t.status.done = true ∧ t.status.busy = false ∧
    (t.status.err = true ↔ t.status.errcode ≠ .none)

/-- R203: an error completion is precise. When the engine's turn ends a command with ERR = 1, four STATUS fields are all that
changed of what the host can see. -/
def Obligations.ErrorCompletionsChangeOnlyFourStatusFields : Prop :=
  ∀ s t : State, s.status.busy = true → (s.agenda = [] ∨ ∃ rest, s.agenda = .engine :: rest) → step s = .next t →
    t.status.err = true → EndedInError t.status.errcode s t

/-- R202, R204 to R209: which error a command word takes: ILLEGAL_CMD first, then BAD_ROUNDS, DIV_BY_ZERO and ZERO_MODULUS, each
exactly for its cause, and otherwise none. -/
def Obligations.ErrorCodesNameTheirCauses : Prop :=
  ∀ (s t : State) (p : Pending), s.status.busy = true → s.agenda = [] → s.pend = some p → step s = .next t →
    (t.status.errcode = .illegalCmd ↔ ∃ e, decode s.cmdr = .error e) ∧
    (t.status.errcode = .badRounds ↔ ∃ rs1 rounds, decode s.cmdr = .ok (.isprime rs1 rounds) ∧ 5 < rounds) ∧
    (t.status.errcode = .divByZero ↔
      ∃ rd rs1 rs2, (decode s.cmdr = .ok (.div rd rs1 rs2) ∨ decode s.cmdr = .ok (.mod rd rs1 rs2)) ∧
        engineNonzero p.regs[rs2] = false) ∧
    (t.status.errcode = .zeroModulus ↔
      ∃ rd rs1 rs2 rs3, decode s.cmdr = .ok (.modexp rd rs1 rs2 rs3) ∧ engineNonzero p.regs[rs3] = false) ∧
    (t.status.err = true ↔ t.status.errcode ≠ .none)

/-- R28: CMDR holds the command word last accepted: only an acceptance and reset change it. -/
def Obligations.CmdrChangesOnlyByAcceptanceOrReset : Prop :=
  ∀ s t : State, step s = .next t → t.cmdr ≠ s.cmdr →
    (s.status.busy = false ∧ ∃ rest, s.agenda = .host (.write 0x0008#16 t.cmdr) :: rest) ∨
    ∃ presented rest, s.agenda = .reset presented :: rest

/-- R214: an acceptance and reset clear ERR and ERRCODE, and every other step keeps an ERR of 1 and its ERRCODE. In a state no run
reaches ERR and BUSY could both be 1, so the invariant is assumed. -/
def Obligations.ErrorIsClearedOnlyByAcceptanceOrReset : Prop :=
  ∀ s t : State, s.Consistent → step s = .next t →
    (((s.status.busy = false ∧ ∃ c rest, s.agenda = .host (.write 0x0008#16 c) :: rest) ∨
        ∃ presented rest, s.agenda = .reset presented :: rest) →
      t.status.err = false ∧ t.status.errcode = .none) ∧
    (¬ ((s.status.busy = false ∧ ∃ c rest, s.agenda = .host (.write 0x0008#16 c) :: rest) ∨
        ∃ presented rest, s.agenda = .reset presented :: rest) →
      s.status.err = true → t.status.err = true ∧ t.status.errcode = s.status.errcode)

/-- A value register changes only by a window write while BUSY = 0, by the successful completion of a command whose RD names
it, or by reset (R23, R54, R60, R230). -/
def Obligations.ValueRegistersChangeOnlyByThreeEvents : Prop :=
  ∀ (s t : State) (r : VReg), step s = .next t → t.regs[r] ≠ s.regs[r] →
    (s.status.busy = false ∧
      ∃ (w : Nat) (d : Word) (rest : List Event), w < 64 ∧
        s.agenda = .host (.write (BitVec.ofNat 16 (0x1000 + 0x200 * r.val + 8 * w)) d) :: rest) ∨
    (s.status.busy = true ∧ (s.agenda = [] ∨ ∃ rest, s.agenda = .engine :: rest) ∧ t.status.err = false ∧
      ∃ i, decode s.cmdr = .ok i ∧ destination i = some r) ∨
    ∃ presented rest, s.agenda = .reset presented :: rest

/-! ### Arithmetic laws -/

/-- R119: quotient and remainder recombine exactly through the multiplier and the adder, and every value has its additive
inverse. -/
def Obligations.QuotientAndRemainderRecombine : Prop :=
  ∀ a b : Value,
    (b.toNat ≠ 0 →
      engineAdd (engineMul (engineDivmod a b).1 b) (engineDivmod a b).2 = a ∧ (engineDivmod a b).2.toNat < b.toNat) ∧
    engineAdd a (engineSub 0#4096 a) = 0#4096

/-- R146: shifting left then right keeps the low 4096 − k bits, right then left clears the low k bits, and shifts add up. -/
def Obligations.ShiftRoundTripsMaskTheValue : Prop :=
  ∀ (a : Value) (k k' : Nat),
    (k < 4096 → engineShr (engineShl a k) k = a &&& BitVec.ofNat 4096 (2 ^ (4096 - k) - 1)) ∧
    (4096 ≤ k → engineShr (engineShl a k) k = 0#4096) ∧
    engineShl (engineShr a k) k = a &&& ~~~BitVec.ofNat 4096 (2 ^ k - 1) ∧
    engineShl (engineShl a k) k' = engineShl a (k + k') ∧ engineShr (engineShr a k) k' = engineShr a (k + k')

/-- R172: for a modulus up to 2^2048 MODEXP computes the mathematical power, for every exponent but 0 with modulus 1. Above that
the truncating algorithm decides: in the rule's own example it gives 0, and the power is 2^4094. -/
def Obligations.ModexpIsExactUpToHalfWidth : Prop :=
  (∀ b e m : Value, m.toNat ≠ 0 → m.toNat ≤ 2 ^ 2048 → (e.toNat ≠ 0 ∨ 1 < m.toNat) →
    (modexp4096 b e m).toNat = b.toNat ^ e.toNat % m.toNat) ∧
  modexp4096 (BitVec.twoPow 4096 4095) 2#4096 maxValue = 0#4096 ∧
  (BitVec.twoPow 4096 4095).toNat ^ 2 % maxValue.toNat = 2 ^ 4094

/-- R174: at step 4 the decomposition is exact: `n − 1 = d · 2^r` with `d` odd and `1 ≤ r ≤ 4095`. In step 5d an `x` of 1 stays 1
and is not `n − 1`. -/
def Obligations.DecompositionIsExact : Prop :=
  ∀ n : Value, n.toNat % 2 = 1 → 5 ≤ n.toNat →
    (let dr := decomposeLoop 4096 (engineSub n 1#4096) 0
     n.toNat - 1 = dr.1.toNat * 2 ^ dr.2 ∧ dr.1.toNat % 2 = 1 ∧ 1 ≤ dr.2 ∧ dr.2 ≤ 4095) ∧
    (engineDivmod (engineMul 1#4096 1#4096) n).2 = 1#4096 ∧ engineSub n 1#4096 ≠ 1#4096

/-- R175: the guard passes a witness untested exactly when it equals `n`, and so 5, 7 and 11 are prime at every round count. -/
def Obligations.WitnessGuardAppliesOnlyToItself : Prop :=
  (∀ (n : Value) (a : Nat), n.toNat % 2 = 1 → 5 ≤ n.toNat → a ∈ [2, 3, 5, 7, 11] →
    ((engineDivmod (BitVec.ofNat 4096 a) n).2 = 0#4096 ↔ n.toNat = a)) ∧
  (∀ rounds : Nat, rounds ≤ 5 →
    isprime4096 5#4096 rounds = true ∧ isprime4096 7#4096 rounds = true ∧ isprime4096 11#4096 rounds = true)

/-- R173: the answers of steps 1 to 3; and for odd `n ≥ 5` with `n − 1 = d · 2^r`, `d` odd, the answer is 1 exactly when each of
the first `rounds` witnesses passes: by the guard, or because `base^d mod n`, or one of its up to `r − 1` squarings, is
`n − 1`, or because it is 1. All on the word-level engines. -/
def Obligations.IsprimeRunsMillerRabin : Prop :=
  (∀ (n : Value) (rounds : Nat),
    (n.toNat ≤ 1 → isprime4096 n rounds = false) ∧
    (n.toNat = 2 ∨ n.toNat = 3 → isprime4096 n rounds = true) ∧
    (2 < n.toNat → n.toNat % 2 = 0 → isprime4096 n rounds = false)) ∧
  (∀ (n d : Value) (r rounds : Nat), 5 ≤ n.toNat → n.toNat % 2 = 1 → n.toNat - 1 = d.toNat * 2 ^ r → d.toNat % 2 = 1 →
    (isprime4096 n rounds = true ↔
      ∀ (k a : Nat), k < rounds → [2, 3, 5, 7, 11][k]? = some a →
        engineNonzero (engineDivmod (BitVec.ofNat 4096 a) n).2 = false ∨
        modexp4096 (BitVec.ofNat 4096 a) d n = 1#4096 ∨
        ∃ t, t ≤ r - 1 ∧
          (fun x : Value => (engineDivmod (engineMul x x) n).2)^[t] (modexp4096 (BitVec.ofNat 4096 a) d n) =
            engineSub n 1#4096))

/-- A prime up to 2^2048 is never reported composite, at any legal round count: ISPRIME's answer 0 is a proof that `n` is
composite (its answer 1 is none, R8, R177). -/
def Obligations.PrimesAreNeverReportedComposite : Prop :=
  ∀ (n : Value) (rounds : Nat), n.toNat.Prime → n.toNat ≤ 2 ^ 2048 → rounds ≤ 5 → isprime4096 n rounds = true

/-- R177: PRIME = 1 is no proof. The composite 2152302898747 = 6763 · 10627 · 29947 passes all five witnesses. -/
def Obligations.KnownCompositePassesEveryWitness : Prop :=
  (2152302898747 : Nat) = 6763 * 10627 * 29947 ∧ isprime4096 2152302898747#4096 5 = true
end

