-- ==== Sys2Proof/Laws/Decode.lean ====
section
/-! SUPPORT. The opcode table is unambiguous, and the fields of a word put together read back. -/

namespace Sys2Proof

/-- No word matches two rows: under the bits both masks look at, the patterns of two rows differ (R85). -/
theorem opcodeTable_disjoint :
    opcodeTable.Pairwise fun row row' => (row.mask &&& row'.mask) &&& (row.pattern ^^^ row'.pattern) ≠ 0#64 := by
  decide

/-- Two rows whose patterns differ under both masks have no word in common. -/
theorem not_both_match (row row' : OpcodeRow) (c : Word)
    (h : (row.mask &&& row'.mask) &&& (row.pattern ^^^ row'.pattern) ≠ 0#64)
    (h1 : row.matchesWord c = true) (h2 : row'.matchesWord c = true) : False := by
  simp only [OpcodeRow.matchesWord, beq_iff_eq] at h1 h2
  apply h
  rw [← h1, ← h2]
  refine BitVec.eq_of_getLsbD_eq fun i _ => ?_
  simp only [BitVec.getLsbD_and, BitVec.getLsbD_xor, BitVec.getLsbD_zero]
  cases row.mask.getLsbD i <;> cases row'.mask.getLsbD i <;> cases c.getLsbD i <;> rfl

/-- In a list no word of which matches two rows, the first row that matches is the one that does. -/
theorem find_matching_row (rows : List OpcodeRow)
    (hd : rows.Pairwise fun row row' => (row.mask &&& row'.mask) &&& (row.pattern ^^^ row'.pattern) ≠ 0#64)
    (row : OpcodeRow) (hm : row ∈ rows) (c : Word) (hc : row.matchesWord c = true) :
    rows.find? (fun row => row.matchesWord c) = some row := by
  induction rows with
  | nil => simp at hm
  | cons r rs ih =>
    rw [List.pairwise_cons] at hd
    rcases List.mem_cons.1 hm with rfl | hm
    · simp only [List.find?_cons, hc]
    · have : r.matchesWord c = false :=
        Bool.eq_false_iff.2 fun h => not_both_match r row c (hd.1 row hm) h hc
      simp only [List.find?_cons, this]
      exact ih hd.2 hm

/-- A word that matches a row of the table decodes as that row's command (R85, R89). -/
theorem decode_of_row (row : OpcodeRow) (hm : row ∈ opcodeTable) (c : Word) (hc : row.matchesWord c = true) :
    decode c = .ok (row.build (fields c)) := by
  rw [decode, find_matching_row opcodeTable opcodeTable_disjoint row hm c hc]

/-- A word decodes as a command only through a row it matches (R88). -/
theorem row_of_decode (c : Word) (i : Instr) (h : decode c = .ok i) :
    ∃ row ∈ opcodeTable, row.matchesWord c = true ∧ row.build (fields c) = i := by
  rw [decode] at h
  split at h
  · next row hrow =>
    exact ⟨row, List.mem_of_find?_eq_some hrow, by simpa using List.find?_some hrow, by simpa using h⟩
  · simp at h

/-- A word that decodes as no command matches no row (R88). -/
theorem no_row_of_illegal (c : Word) (e : IllegalCommand) (h : decode c = .error e) :
    ∀ row ∈ opcodeTable, row.matchesWord c = false := by
  rw [decode] at h
  split at h
  · simp at h
  · next hnone => simpa using List.find?_eq_none.1 hnone

/-- Masking a word put together from fields masks its fields one by one. -/
theorem joinFields_and (op op' : BitVec 8) (rd rs1 rs2 rs3 rd' rs1' rs2' rs3' : BitVec 4) (rsv rsv' : BitVec 8)
    (imm imm' : BitVec 32) :
    joinFields op rd rs1 rs2 rs3 rsv imm &&& joinFields op' rd' rs1' rs2' rs3' rsv' imm' =
      joinFields (op &&& op') (rd &&& rd') (rs1 &&& rs1') (rs2 &&& rs2') (rs3 &&& rs3') (rsv &&& rsv') (imm &&& imm') := by
  unfold joinFields
  change (imm ++ rsv ++ rs3 ++ rs2 ++ rs1 ++ rd ++ op) &&& (imm' ++ rsv' ++ rs3' ++ rs2' ++ rs1' ++ rd' ++ op') = _
  rw [BitVec.and_append, BitVec.and_append, BitVec.and_append, BitVec.and_append, BitVec.and_append, BitVec.and_append]

/-- A word put together from fields, as a number (R81). -/
theorem joinFields_toNat (op : BitVec 8) (rd rs1 rs2 rs3 : BitVec 4) (rsv : BitVec 8) (imm : BitVec 32) :
    (joinFields op rd rs1 rs2 rs3 rsv imm).toNat = op.toNat + 2 ^ 8 * rd.toNat + 2 ^ 12 * rs1.toNat + 2 ^ 16 * rs2.toNat +
      2 ^ 20 * rs3.toNat + 2 ^ 24 * rsv.toNat + 2 ^ 32 * imm.toNat := by
  unfold joinFields
  change (imm ++ rsv ++ rs3 ++ rs2 ++ rs1 ++ rd ++ op).toNat = _
  rw [BitVec.toNat_append, BitVec.toNat_append, BitVec.toNat_append, BitVec.toNat_append, BitVec.toNat_append,
    BitVec.toNat_append, ← Nat.shiftLeft_add_eq_or_of_lt rd.isLt, ← Nat.shiftLeft_add_eq_or_of_lt op.isLt,
    ← Nat.shiftLeft_add_eq_or_of_lt rs1.isLt, ← Nat.shiftLeft_add_eq_or_of_lt rs2.isLt,
    ← Nat.shiftLeft_add_eq_or_of_lt rs3.isLt, ← Nat.shiftLeft_add_eq_or_of_lt rsv.isLt]
  simp only [Nat.shiftLeft_eq]
  ring

/-- An assembled word, as a number. -/
theorem assemble_toNat (op : BitVec 8) (rd rs1 rs2 rs3 : VReg) (imm : Nat) :
    (assemble op rd rs1 rs2 rs3 imm).toNat = op.toNat + 2 ^ 8 * rd.val + 2 ^ 12 * rs1.val + 2 ^ 16 * rs2.val +
      2 ^ 20 * rs3.val + 2 ^ 32 * (imm % 2 ^ 32) := by
  simp only [assemble, joinFields_toNat, BitVec.toNat_ofNat, BitVec.toNat_ofFin]
  omega

/-- The operand fields of an assembled word read back (R81, R89). -/
theorem fields_assemble (op : BitVec 8) (rd rs1 rs2 rs3 : VReg) (imm : Nat) :
    fields (assemble op rd rs1 rs2 rs3 imm) = ⟨rd, rs1, rs2, rs3, imm % 2 ^ 32⟩ := by
  have h := assemble_toNat op rd rs1 rs2 rs3 imm
  have := op.isLt
  have := rd.isLt
  have := rs1.isLt
  have := rs2.isLt
  have := rs3.isLt
  simp only [fields, regField, BitVec.extractLsb'_toNat, Nat.shiftRight_eq_div_pow, h, Fields.mk.injEq, Fin.ext_iff]
  omega

end Sys2Proof
end

