-- ==== Sys2Proof/Laws/Value.lean ====
section
/-! SUPPORT. The word view of a value: what `word` and `setWord` do, bit by bit, word by word and as numbers. -/

namespace Sys2Proof.Machine

set_option exponentiation.threshold 5000

theorem word_getLsbD (v : Value) (w i : Nat) : (word v w).getLsbD i = (decide (i < 64) && v.getLsbD (64 * w + i)) := by
  simp [word, BitVec.getLsbD_extractLsb']

theorem setWord_getLsbD (v : Value) (w i : Nat) (d : Word) (hi : i < 4096) :
    (setWord v w d).getLsbD i = if 64 * w ≤ i ∧ i < 64 * w + 64 then d.getLsbD (i - 64 * w) else v.getLsbD i := by
  simp only [setWord, BitVec.getLsbD_or, BitVec.getLsbD_and, BitVec.getLsbD_not, BitVec.getLsbD_shiftLeft,
    BitVec.getLsbD_setWidth, BitVec.getLsbD_allOnes, hi, decide_true, Bool.true_and]
  by_cases h1 : i < 64 * w
  · have : ¬ (64 * w ≤ i) := by omega
    simp [h1, this]
  · have h1' : 64 * w ≤ i := by omega
    by_cases h2 : i < 64 * w + 64
    · have h3 : i - 64 * w < 64 := by omega
      have h4 : i - 64 * w < 4096 := by omega
      simp [h1, h1', h2, h3, h4]
    · have h3 : ¬ (i - 64 * w < 64) := by omega
      have h4 : d.getLsbD (i - 64 * w) = false := BitVec.getLsbD_of_ge _ _ (by omega)
      simp [h1, h2, h3, h4]

/-- A word written reads back; every other word reads as before (R54). -/
theorem word_setWord (v : Value) (w w' : Nat) (d : Word) (hw' : w' < 64) :
    word (setWord v w d) w' = if w = w' then d else word v w' := by
  apply BitVec.eq_of_getLsbD_eq
  intro i hi
  rw [word_getLsbD, setWord_getLsbD _ _ _ _ (by omega)]
  by_cases h : w = w'
  · subst h
    simp [hi]
  · have : ¬ (64 * w ≤ 64 * w' + i ∧ 64 * w' + i < 64 * w + 64) := by omega
    rw [if_neg this, if_neg h, word_getLsbD]

/-- Two values with the same 64 words are one value (R22). -/
theorem value_ext {a b : Value} (h : ∀ w, w < 64 → word a w = word b w) : a = b := by
  apply BitVec.eq_of_getLsbD_eq
  intro i hi
  have := congrArg (fun x => x.getLsbD (i % 64)) (h (i / 64) (by omega))
  simp only [word_getLsbD, Nat.mod_lt i (by decide : 0 < 64), decide_true, Bool.true_and] at this
  rwa [show 64 * (i / 64) + i % 64 = i by omega] at this

theorem word_zero (w : Nat) : word 0#4096 w = 0#64 := by
  apply BitVec.eq_of_getLsbD_eq
  intro i _
  simp [word_getLsbD]

theorem word_toNat (v : Value) (w : Nat) : (word v w).toNat = v.toNat / 2 ^ (64 * w) % 2 ^ 64 := by
  simp [word, BitVec.extractLsb'_toNat, Nat.shiftRight_eq_div_pow]

/-- The low `w + 1` words as a number: the low `w` words and the word `w` on top (R13). -/
theorem toNat_mod_succ (v : Value) (w : Nat) :
    v.toNat % 2 ^ (64 * (w + 1)) = v.toNat % 2 ^ (64 * w) + (word v w).toNat * 2 ^ (64 * w) := by
  rw [word_toNat, show 64 * (w + 1) = 64 * w + 64 by ring, pow_add, Nat.mod_mul]
  ring

/-- Writing one word changes the value by the difference of the words, in the ring of R13. -/
theorem setWord_eq_add (v : Value) (w : Nat) (d : Word) (hw : w < 64) :
    (setWord v w d).toNat + (word v w).toNat * 2 ^ (64 * w) = v.toNat + d.toNat * 2 ^ (64 * w) := by
  have key : ∀ n, n ≤ 64 → (setWord v w d).toNat % 2 ^ (64 * n) + (if w < n then (word v w).toNat * 2 ^ (64 * w) else 0) =
      v.toNat % 2 ^ (64 * n) + (if w < n then d.toNat * 2 ^ (64 * w) else 0) := by
    intro n
    induction n with
    | zero => intro _; simp [Nat.mod_one]
    | succ n ih =>
      intro hn
      have ih := ih (by omega)
      rw [toNat_mod_succ, toNat_mod_succ, word_setWord _ _ _ _ (by omega)]
      rcases Nat.lt_trichotomy w n with h | h | h
      · have h1 : w < n + 1 := by omega
        have h2 : w ≠ n := by omega
        simp only [h, h1, h2, if_true, if_false] at ih ⊢
        omega
      · subst h
        simp at ih ⊢
        omega
      · have h1 : ¬ w < n := by omega
        have h2 : ¬ w < n + 1 := by omega
        have h3 : w ≠ n := by omega
        simp only [h1, h2, h3, if_false] at ih ⊢
        omega
  have := key 64 (by omega)
  simp only [hw, if_true] at this
  rwa [Nat.mod_eq_of_lt (by exact (setWord v w d).isLt), Nat.mod_eq_of_lt (by exact v.isLt)] at this

theorem nonzero_iff (a : Value) : nonzero a = true ↔ a.toNat ≠ 0 := by
  simp [nonzero, BitVec.toNat_eq]

end Sys2Proof.Machine
end

