-- ==== Sys2Proof/Laws/Engines.lean ====
section
/-! SUPPORT. Each word-level engine of Machine/Engines.lean computes its function of Machine/Value.lean. -/

namespace Sys2Proof.Machine

set_option exponentiation.threshold 5000

/-! ### The word primitives of R110 -/

theorem lo64_add_hi64 (t : BitVec 128) : (lo64 t).toNat + (hi64 t).toNat * 2 ^ 64 = t.toNat := by
  have := t.isLt
  simp only [lo64, hi64, BitVec.extractLsb'_toNat, Nat.shiftRight_eq_div_pow]
  omega

/-- `addc64` loses nothing: low word and carry make up the sum. -/
theorem addc64_spec (x y cin : Word) (hc : cin.toNat ≤ 1) :
    (addc64 x y cin).1.toNat + (addc64 x y cin).2.toNat * 2 ^ 64 = x.toNat + y.toNat + cin.toNat := by
  have := x.isLt
  have := y.isLt
  simp only [addc64, lo64_add_hi64, BitVec.toNat_ofNat]
  omega

/-- The carry of `addc64` is 0 or 1 (R110). -/
theorem addc64_carry (x y cin : Word) (hc : cin.toNat ≤ 1) : (addc64 x y cin).2.toNat ≤ 1 := by
  have h := addc64_spec x y cin hc
  have := x.isLt
  have := y.isLt
  omega

/-- `subb64` loses nothing: the low word and the borrow make up the difference. -/
theorem subb64_spec (x y bin : Word) (hb : bin.toNat ≤ 1) :
    (subb64 x y bin).1.toNat + y.toNat + bin.toNat = x.toNat + (subb64 x y bin).2.toNat * 2 ^ 64 := by
  have hx := x.isLt
  have hy := y.isLt
  have hz := bin.isLt
  simp only [subb64, lo64, BitVec.extractLsb'_toNat, BitVec.toNat_sub, BitVec.toNat_setWidth, Nat.shiftRight_zero]
  split <;> simp only [BitVec.toNat_ofNat] <;> omega

theorem subb64_borrow (x y bin : Word) : (subb64 x y bin).2.toNat ≤ 1 := by
  simp only [subb64]
  split <;> decide

/-- `mulacc64` never exceeds 128 bits (R110). -/
theorem mulacc64_spec (r x y c : Word) :
    (mulacc64 r x y c).1.toNat + (mulacc64 r x y c).2.toNat * 2 ^ 64 = r.toNat + x.toNat * y.toNat + c.toNat := by
  have hr := r.isLt
  have hc := c.isLt
  have hxy : x.toNat * y.toNat ≤ (2 ^ 64 - 1) * (2 ^ 64 - 1) :=
    Nat.mul_le_mul (by have := x.isLt; omega) (by have := y.isLt; omega)
  simp only [mulacc64, lo64_add_hi64, BitVec.toNat_ofNat]
  generalize x.toNat * y.toNat = p at *
  omega

/-! ### The adder and the subtractor -/

/-- Writing word `w` of a value that has none of its words from `w` up set. -/
theorem setWord_top (r : Value) (w : Nat) (d : Word) (hw : w < 64) (hr : r.toNat < 2 ^ (64 * w)) :
    (setWord r w d).toNat = r.toNat + d.toNat * 2 ^ (64 * w) ∧ (setWord r w d).toNat < 2 ^ (64 * (w + 1)) := by
  have h := setWord_eq_add r w d hw
  rw [word_toNat, Nat.div_eq_of_lt hr] at h
  simp only [Nat.zero_mod, zero_mul, add_zero] at h
  refine ⟨h, ?_⟩
  rw [h, show 64 * (w + 1) = 64 + 64 * w by ring, pow_add]
  have := Nat.mul_le_mul_right (2 ^ (64 * w)) (show d.toNat + 1 ≤ 2 ^ 64 from d.isLt)
  rw [add_mul, one_mul] at this
  omega

theorem addLoop_toNat (a b : Value) (n w : Nat) (r : Value) (c : Word) (hn : w + n = 64) (hc : c.toNat ≤ 1)
    (hr : r.toNat < 2 ^ (64 * w))
    (inv : r.toNat + c.toNat * 2 ^ (64 * w) = a.toNat % 2 ^ (64 * w) + b.toNat % 2 ^ (64 * w)) :
    (addLoop a b n w r c).toNat = (a.toNat + b.toNat) % 2 ^ 4096 := by
  induction n generalizing w r c with
  | zero =>
    obtain rfl : w = 64 := by omega
    simp only [addLoop]
    have ha := a.isLt
    have hb := b.isLt
    omega
  | succ n ih =>
    have hs := addc64_spec (word a w) (word b w) c hc
    obtain ⟨hset, hlt⟩ := setWord_top r w (addc64 (word a w) (word b w) c).1 (by omega) hr
    refine ih (w + 1) _ _ (by omega) (addc64_carry _ _ _ hc) hlt ?_
    rw [hset, toNat_mod_succ, toNat_mod_succ, show 64 * (w + 1) = 64 + 64 * w by ring, pow_add]
    have hs := congrArg (· * 2 ^ (64 * w)) hs
    simp only [add_mul] at hs
    linarith

/-- The carry-propagate adder computes the sum modulo 2^4096 (R111). -/
theorem engineAdd_eq (a b : Value) : engineAdd a b = add4096 a b := by
  apply BitVec.eq_of_toNat_eq
  rw [engineAdd, addLoop_toNat a b 64 0 _ _ (by omega) (by decide) (by decide) (by simp [Nat.mod_one]), add4096,
    BitVec.toNat_add]

theorem subLoop_toNat (a b : Value) (n w : Nat) (r : Value) (bw : Word) (hn : w + n = 64) (hc : bw.toNat ≤ 1)
    (hr : r.toNat < 2 ^ (64 * w))
    (inv : r.toNat + b.toNat % 2 ^ (64 * w) = a.toNat % 2 ^ (64 * w) + bw.toNat * 2 ^ (64 * w)) :
    (subLoop a b n w r bw).toNat = (2 ^ 4096 - b.toNat + a.toNat) % 2 ^ 4096 := by
  induction n generalizing w r bw with
  | zero =>
    obtain rfl : w = 64 := by omega
    simp only [subLoop]
    have ha := a.isLt
    have hb := b.isLt
    omega
  | succ n ih =>
    have hs := subb64_spec (word a w) (word b w) bw hc
    obtain ⟨hset, hlt⟩ := setWord_top r w (subb64 (word a w) (word b w) bw).1 (by omega) hr
    refine ih (w + 1) _ _ (by omega) (subb64_borrow _ _ _) hlt ?_
    rw [hset, toNat_mod_succ, toNat_mod_succ, show 64 * (w + 1) = 64 + 64 * w by ring, pow_add]
    have hs := congrArg (· * 2 ^ (64 * w)) hs
    simp only [add_mul] at hs
    linarith

/-- The carry-propagate subtractor computes the difference modulo 2^4096 (R112). -/
theorem engineSub_eq (a b : Value) : engineSub a b = sub4096 a b := by
  apply BitVec.eq_of_toNat_eq
  rw [engineSub, subLoop_toNat a b 64 0 _ _ (by omega) (by decide) (by decide) (by simp [Nat.mod_one]), sub4096,
    BitVec.toNat_sub]

/-! ### The multiplier -/

/-- The number in words `j` and up splits into word `j` and the words above it. -/
theorem div_mod_words (v : Value) (j n : Nat) :
    v.toNat / 2 ^ (64 * j) % 2 ^ (64 * (n + 1)) =
      (word v j).toNat + v.toNat / 2 ^ (64 * (j + 1)) % 2 ^ (64 * n) * 2 ^ 64 := by
  rw [word_toNat, show 64 * (n + 1) = 64 + 64 * n by ring, pow_add, Nat.mod_mul, show 64 * (j + 1) = 64 * j + 64 by ring,
    pow_add, Nat.div_div_eq_div_mul]
  ring

theorem mulInner_toNat (x : Word) (b : Value) (i n j : Nat) (r : Value) (c : Word) (hn : i + j + n = 64) :
    (mulInner x b i n j r c).toNat ≡
      r.toNat + (c.toNat + x.toNat * (b.toNat / 2 ^ (64 * j) % 2 ^ (64 * n))) * 2 ^ (64 * (i + j)) [MOD 2 ^ 4096] := by
  induction n generalizing j r c with
  | zero =>
    have h64 : 64 * (i + j) = 4096 := by omega
    simp only [mulInner, pow_zero, Nat.mod_one, mul_zero, add_zero, h64]
    simp [Nat.ModEq]
  | succ n ih =>
    have hs := mulacc64_spec (word r (i + j)) x (word b j) c
    have hset := setWord_eq_add r (i + j) (mulacc64 (word r (i + j)) x (word b j) c).1 (by omega)
    have hih := ih (j + 1) (setWord r (i + j) (mulacc64 (word r (i + j)) x (word b j) c).1)
      (mulacc64 (word r (i + j)) x (word b j) c).2 (by omega)
    rw [div_mod_words]
    simp only [mulInner]
    refine hih.trans (Nat.ModEq.symm ?_)
    rw [show 64 * (i + (j + 1)) = 64 + 64 * (i + j) by ring, pow_add]
    generalize (mulacc64 (word r (i + j)) x (word b j) c).1 = lo at *
    generalize (mulacc64 (word r (i + j)) x (word b j) c).2 = hi at *
    have hs := congrArg (· * 2 ^ (64 * (i + j))) hs
    simp only [add_mul] at hs
    refine Nat.ModEq.symm (congrArg (· % 2 ^ 4096) ?_)
    linarith

theorem mulOuter_toNat (a b : Value) (n i : Nat) (r : Value) (hn : i + n = 64) :
    (mulOuter a b n i r).toNat ≡
      r.toNat + a.toNat / 2 ^ (64 * i) % 2 ^ (64 * n) * 2 ^ (64 * i) * b.toNat [MOD 2 ^ 4096] := by
  induction n generalizing i r with
  | zero => simp [mulOuter, Nat.mod_one]; rfl
  | succ n ih =>
    have hstep : (if word a i = 0#64 then r else mulInner (word a i) b i (64 - i) 0 r 0#64).toNat ≡
        r.toNat + (word a i).toNat * 2 ^ (64 * i) * b.toNat [MOD 2 ^ 4096] := by
      split
      · next h => simp [h]; rfl
      · refine (mulInner_toNat _ b i (64 - i) 0 r 0#64 (by omega)).trans ?_
        simp only [Nat.mul_zero, pow_zero, Nat.div_one, add_zero, BitVec.toNat_ofNat, Nat.zero_mod, zero_add]
        refine Nat.ModEq.add_left _ ?_
        have hpow : 2 ^ (64 * (64 - i)) * 2 ^ (64 * i) = 2 ^ 4096 := by
          rw [← pow_add]; congr 1; omega
        have hmod : b.toNat % 2 ^ (64 * (64 - i)) * 2 ^ (64 * i) ≡ b.toNat * 2 ^ (64 * i) [MOD 2 ^ 4096] := by
          rw [← hpow]
          exact Nat.ModEq.mul_right' _ (Nat.mod_modEq _ _)
        have h2 := hmod.mul_left (word a i).toNat
        rw [show (word a i).toNat * (b.toNat % 2 ^ (64 * (64 - i))) * 2 ^ (64 * i) =
            (word a i).toNat * (b.toNat % 2 ^ (64 * (64 - i)) * 2 ^ (64 * i)) by ring,
          show (word a i).toNat * 2 ^ (64 * i) * b.toNat = (word a i).toNat * (b.toNat * 2 ^ (64 * i)) by ring]
        exact h2
    refine (ih (i + 1) _ (by omega)).trans ((hstep.add_right _).trans ?_)
    rw [div_mod_words, show 64 * (i + 1) = 64 * i + 64 by ring, pow_add]
    refine congrArg (· % 2 ^ 4096) ?_
    ring

/-- The schoolbook multiplier computes the product modulo 2^4096 (R113). -/
theorem engineMul_eq (a b : Value) : engineMul a b = mul4096 a b := by
  apply BitVec.eq_of_toNat_eq
  have h := mulOuter_toNat a b 64 0 0#4096 (by omega)
  simp only [Nat.mul_zero, pow_zero, Nat.div_one, mul_one, BitVec.toNat_ofNat, Nat.zero_mod, zero_add] at h
  rw [Nat.mod_eq_of_lt (show a.toNat < 2 ^ (64 * 64) from a.isLt)] at h
  rw [engineMul, mul4096, BitVec.toNat_mul, ← h]
  exact (Nat.mod_eq_of_lt (BitVec.isLt _)).symm

/-! ### The long-division engine -/

theorem divLoop_toNat (a b : Value) (hb : b.toNat ≠ 0) (n : Nat) (hn : n ≤ 4096) (q r : Value)
    (hq : q.toNat = a.toNat / 2 ^ n / b.toNat * 2 ^ n) (hr : r.toNat = a.toNat / 2 ^ n % b.toNat) :
    (divLoop a b n q r).1.toNat = a.toNat / b.toNat ∧ (divLoop a b n q r).2.toNat = a.toNat % b.toNat := by
  induction n generalizing q r with
  | zero => simp only [pow_zero, Nat.div_one, mul_one] at hq hr; exact ⟨hq, hr⟩
  | succ n ih =>
    have ha := a.isLt
    -- the next dividend bit, and the dividend down to it
    have hbit : ((a.extractLsb' n 1).setWidth 4096).toNat = a.toNat / 2 ^ n % 2 := by
      simp only [BitVec.toNat_setWidth, BitVec.extractLsb'_toNat, Nat.shiftRight_eq_div_pow, pow_one]
      omega
    have hA : a.toNat / 2 ^ n = 2 * (a.toNat / 2 ^ (n + 1)) + a.toNat / 2 ^ n % 2 := by
      rw [pow_succ, ← Nat.div_div_eq_div_mul]; omega
    have hsmall : a.toNat / 2 ^ n < 2 ^ 4096 := lt_of_le_of_lt (Nat.div_le_self _ _) ha
    have hrle : r.toNat ≤ a.toNat / 2 ^ (n + 1) := hr ▸ Nat.mod_le _ _
    have hsh : (r <<< 1).toNat = 2 * r.toNat := by
      rw [BitVec.toNat_shiftLeft, Nat.shiftLeft_eq, pow_one, Nat.mod_eq_of_lt (by omega), mul_comm]
    have hr' : ((r <<< 1) ||| (a.extractLsb' n 1).setWidth 4096).toNat = 2 * r.toNat + a.toNat / 2 ^ n % 2 := by
      rw [BitVec.toNat_or, hsh, hbit]
      have := Nat.two_pow_add_eq_or_of_lt (show a.toNat / 2 ^ n % 2 < 2 ^ 1 by omega) r.toNat
      rw [pow_one] at this
      exact this.symm
    have hbit1 : a.toNat / 2 ^ n % 2 ≤ 1 := by omega
    simp only [divLoop]
    generalize (r <<< 1) ||| (a.extractLsb' n 1).setWidth 4096 = r' at *
    generalize a.toNat / 2 ^ n % 2 = bit at *
    generalize a.toNat / 2 ^ (n + 1) = A at *
    have hdm := Nat.div_add_mod A b.toNat
    have hrlt : r.toNat < b.toNat := hr ▸ Nat.mod_lt _ (by omega)
    have hbl := b.isLt
    split
    · next hge =>
      have hdiv : a.toNat / 2 ^ n / b.toNat = 2 * (A / b.toNat) + 1 := by
        rw [hA]
        refine Nat.div_eq_of_lt_le ?_ ?_ <;> nlinarith
      have hmod : a.toNat / 2 ^ n % b.toNat = r'.toNat - b.toNat := by
        have h1 := Nat.div_add_mod (a.toNat / 2 ^ n) b.toNat
        rw [hdiv, mul_add, mul_left_comm] at h1
        omega
      refine ih (by omega) _ _ ?_ ?_
      · rw [BitVec.toNat_or, BitVec.toNat_shiftLeft, hq, hdiv, pow_succ]
        have h1 : (1#4096).toNat <<< n % 2 ^ 4096 = 2 ^ n := by
          simp only [BitVec.toNat_ofNat, Nat.shiftLeft_eq]
          rw [Nat.mod_eq_of_lt (show 1 < 2 ^ 4096 by decide +kernel), one_mul, Nat.mod_eq_of_lt (Nat.pow_lt_pow_right (by omega) (by omega))]
        rw [h1]
        have h2 := Nat.two_pow_add_eq_or_of_lt (show 2 ^ n < 2 ^ (n + 1) from Nat.pow_lt_pow_right (by omega) (by omega)) (A / b.toNat)
        rw [pow_succ] at h2
        rw [mul_comm (A / b.toNat), ← h2]
        ring
      · rw [engineSub_eq, sub4096, BitVec.toNat_sub, hmod]
        have := r'.isLt
        omega
    · next hlt =>
      have hdiv : a.toNat / 2 ^ n / b.toNat = 2 * (A / b.toNat) := by
        rw [hA]
        refine Nat.div_eq_of_lt_le ?_ ?_ <;> nlinarith
      have hmod : a.toNat / 2 ^ n % b.toNat = r'.toNat := by
        have h1 := Nat.div_add_mod (a.toNat / 2 ^ n) b.toNat
        rw [hdiv, mul_left_comm] at h1
        omega
      refine ih (by omega) _ _ ?_ hmod.symm
      rw [hq, hdiv, pow_succ]
      ring

/-- The long-division engine computes the exact quotient and remainder (R116). -/
theorem engineDivmod_eq (a b : Value) (hb : nonzero b = true) : engineDivmod a b = divmod4096 a b := by
  have hb' := (nonzero_iff b).1 hb
  have ha : a.toNat / 2 ^ 4096 = 0 := Nat.div_eq_of_lt a.isLt
  obtain ⟨h1, h2⟩ := divLoop_toNat a b hb' 4096 le_rfl 0#4096 0#4096
    (by rw [ha, Nat.zero_div, zero_mul]; rfl) (by rw [ha, Nat.zero_mod]; rfl)
  refine Prod.ext (BitVec.eq_of_toNat_eq ?_) (BitVec.eq_of_toNat_eq ?_)
  · rw [divmod4096, BitVec.toNat_udiv]; exact h1
  · rw [divmod4096, BitVec.toNat_umod]; exact h2

/-! ### The word-wise commands, the shifters, the comparator and the zero test -/

/-- The word loops set exactly the words they count. -/
theorem word_setWords (f : Nat → Word) (n : Nat) (v : Value) (w : Nat) (hn : n ≤ 64) (hw : w < 64) :
    word (setWords f n v) w = if w < n then f w else word v w := by
  induction n with
  | zero => simp [setWords]
  | succ n ih =>
    rw [setWords, word_setWord _ _ _ _ hw, ih (by omega)]
    rcases Nat.lt_trichotomy w n with h | h | h
    · rw [if_neg (by omega), if_pos h, if_pos (by omega)]
    · subst h; rw [if_pos rfl, if_pos (by omega)]
    · rw [if_neg (by omega), if_neg (by omega), if_neg (by omega)]

/-- A value is what its 64 words are set to. -/
theorem setWords_eq (f : Nat → Word) (v : Value) (h : ∀ w, w < 64 → word v w = f w) : setWords f 64 0#4096 = v :=
  value_ext fun w hw => by rw [word_setWords _ _ _ _ le_rfl hw, if_pos hw, h w hw]

theorem word_and (a b : Value) (w : Nat) : word (a &&& b) w = word a w &&& word b w := by
  refine BitVec.eq_of_getLsbD_eq fun i hi => ?_
  simp [word_getLsbD, hi, -BitVec.getLsbD_eq_getElem]

theorem word_or (a b : Value) (w : Nat) : word (a ||| b) w = word a w ||| word b w := by
  refine BitVec.eq_of_getLsbD_eq fun i hi => ?_
  simp [word_getLsbD, hi, -BitVec.getLsbD_eq_getElem]

theorem word_xor (a b : Value) (w : Nat) : word (a ^^^ b) w = word a w ^^^ word b w := by
  refine BitVec.eq_of_getLsbD_eq fun i hi => ?_
  simp [word_getLsbD, hi, -BitVec.getLsbD_eq_getElem]

theorem word_not (a : Value) (w : Nat) (hw : w < 64) : word (~~~a) w = ~~~word a w := by
  refine BitVec.eq_of_getLsbD_eq fun i hi => ?_
  have : 64 * w + i < 4096 := by omega
  simp [word_getLsbD, hi, this, -BitVec.getLsbD_eq_getElem]

theorem engineAnd_eq (a b : Value) : engineAnd a b = a &&& b := setWords_eq _ _ fun w _ => word_and a b w

theorem engineOr_eq (a b : Value) : engineOr a b = a ||| b := setWords_eq _ _ fun w _ => word_or a b w

theorem engineXor_eq (a b : Value) : engineXor a b = a ^^^ b := setWords_eq _ _ fun w _ => word_xor a b w

theorem engineNot_eq (a : Value) : engineNot a = ~~~a :=
  setWords_eq _ _ fun w hw => by
    rw [word_not a w hw, show (0xFFFFFFFFFFFFFFFF#64) = BitVec.allOnes 64 by decide, BitVec.xor_allOnes]

/-- A bit of a word that stands only under a condition. -/
theorem ite_word_getLsbD (c : Prop) [Decidable c] (a : Value) (w i : Nat) :
    (if c then word a w else 0#64).getLsbD i = (decide c && (decide (i < 64) && a.getLsbD (64 * w + i))) := by
  by_cases h : c <;> simp [h, word_getLsbD, -BitVec.getLsbD_eq_getElem]

theorem shlWord_getLsbD (a : Value) (k w i : Nat) (hi : i < 64) :
    (shlWord a k w).getLsbD i = (decide (k ≤ 64 * w + i) && a.getLsbD (64 * w + i - k)) := by
  have hk : k = 64 * (k / 64) + k % 64 := by omega
  have hs : k % 64 < 64 := Nat.mod_lt _ (by decide)
  simp only [shlWord]
  generalize k / 64 = q at *
  generalize k % 64 = s at *
  subst hk
  split
  · next h0 =>
    subst h0
    rw [ite_word_getLsbD]
    by_cases hq : q ≤ w
    · have : 64 * q + 0 ≤ 64 * w + i := by omega
      simp only [hq, hi, this, decide_true, Bool.true_and]
      congr 1; omega
    · have : ¬ 64 * q + 0 ≤ 64 * w + i := by omega
      simp only [hq, this, decide_false, Bool.false_and]
  · next h0 =>
    rw [BitVec.getLsbD_or, BitVec.getLsbD_shiftLeft, BitVec.getLsbD_ushiftRight, ite_word_getLsbD, ite_word_getLsbD]
    by_cases his : i < s
    · -- the bit comes from the lower word
      have h1 : 64 - s + i < 64 := by omega
      by_cases hq : q + 1 ≤ w
      · have : 64 * q + s ≤ 64 * w + i := by omega
        simp only [his, hq, h1, this, decide_true, Bool.not_true, Bool.and_false, Bool.false_and, Bool.false_or, Bool.true_and]
        congr 1; omega
      · have : ¬ 64 * q + s ≤ 64 * w + i := by omega
        simp [his, hq, this]
    · -- the bit comes from the upper word
      have h1 : ¬ 64 - s + i < 64 := by omega
      have h2 : i - s < 64 := by omega
      by_cases hq : q ≤ w
      · have : 64 * q + s ≤ 64 * w + i := by omega
        simp only [his, hq, h1, h2, hi, this, decide_true, decide_false, Bool.not_false, Bool.and_false, Bool.false_and,
          Bool.or_false, Bool.true_and]
        congr 1; omega
      · have : ¬ 64 * q + s ≤ 64 * w + i := by omega
        simp [hq, h1, this]

/-- The left shifter shifts left, zeros entering below (R144). -/
theorem engineShl_eq (a : Value) (k : Nat) : engineShl a k = shl4096 a k := by
  unfold engineShl shl4096
  split
  · rfl
  · refine setWords_eq _ _ fun w hw => BitVec.eq_of_getLsbD_eq fun i hi => ?_
    have hlt : 64 * w + i < 4096 := by omega
    rw [shlWord_getLsbD a k w i hi, word_getLsbD, BitVec.getLsbD_shiftLeft]
    by_cases h : k ≤ 64 * w + i
    · have : ¬ 64 * w + i < k := by omega
      simp [hi, hlt, h, this]
    · have : 64 * w + i < k := by omega
      simp [h, this]

theorem shrWord_getLsbD (a : Value) (k w i : Nat) (hi : i < 64) :
    (shrWord a k w).getLsbD i = a.getLsbD (k + (64 * w + i)) := by
  have hk : k = 64 * (k / 64) + k % 64 := by omega
  have hs : k % 64 < 64 := Nat.mod_lt _ (by decide)
  simp only [shrWord]
  generalize k / 64 = q at *
  generalize k % 64 = s at *
  subst hk
  split
  · next h0 =>
    subst h0
    rw [ite_word_getLsbD]
    by_cases hq : w + q ≤ 63
    · simp only [hq, hi, decide_true, Bool.true_and]
      congr 1; omega
    · simp only [hq, decide_false, Bool.false_and]
      exact (BitVec.getLsbD_of_ge _ _ (by omega)).symm
  · next h0 =>
    rw [BitVec.getLsbD_or, BitVec.getLsbD_shiftLeft, BitVec.getLsbD_ushiftRight, ite_word_getLsbD, ite_word_getLsbD]
    by_cases his : s + i < 64
    · -- the bit comes from the lower word
      have h1 : i < 64 - s := by omega
      by_cases hq : w + q ≤ 63
      · simp only [his, hq, h1, decide_true, Bool.not_true, Bool.and_false, Bool.false_and, Bool.or_false, Bool.true_and]
        congr 1; omega
      · have : a.getLsbD (64 * q + s + (64 * w + i)) = false := BitVec.getLsbD_of_ge _ _ (by omega)
        simp [hq, h1, this]
    · -- the bit comes from the upper word
      have h1 : ¬ i < 64 - s := by omega
      have h2 : i - (64 - s) < 64 := by omega
      by_cases hq : w + q + 1 ≤ 63
      · simp only [his, hq, h1, h2, hi, decide_true, decide_false, Bool.not_false, Bool.and_false, Bool.false_and,
          Bool.false_or, Bool.true_and]
        congr 1; omega
      · have : a.getLsbD (64 * q + s + (64 * w + i)) = false := BitVec.getLsbD_of_ge _ _ (by omega)
        simp [hq, his, this]

/-- The right shifter shifts right, zeros entering at the top (R145). -/
theorem engineShr_eq (a : Value) (k : Nat) : engineShr a k = shr4096 a k := by
  unfold engineShr shr4096
  split
  · rfl
  · refine setWords_eq _ _ fun w hw => BitVec.eq_of_getLsbD_eq fun i hi => ?_
    rw [shrWord_getLsbD a k w i hi, word_getLsbD, BitVec.getLsbD_ushiftRight, decide_eq_true hi, Bool.true_and]

/-- The comparator on the low `n` words decides their order as numbers. -/
theorem ucmpLoop_eq (a b : Value) (n : Nat) :
    ucmpLoop a b n = if a.toNat % 2 ^ (64 * n) < b.toNat % 2 ^ (64 * n) then .lt
      else if b.toNat % 2 ^ (64 * n) < a.toNat % 2 ^ (64 * n) then .gt else .eq := by
  induction n with
  | zero => simp [ucmpLoop, Nat.mod_one]
  | succ n ih =>
    have ha : a.toNat % 2 ^ (64 * n) < 2 ^ (64 * n) := Nat.mod_lt _ (by positivity)
    have hb : b.toNat % 2 ^ (64 * n) < 2 ^ (64 * n) := Nat.mod_lt _ (by positivity)
    simp only [ucmpLoop, BitVec.lt_def, ih, toNat_mod_succ a n, toNat_mod_succ b n]
    generalize a.toNat % 2 ^ (64 * n) = x at *
    generalize b.toNat % 2 ^ (64 * n) = y at *
    generalize (word a n).toNat = u at *
    generalize (word b n).toNat = v at *
    generalize 2 ^ (64 * n) = p at *
    rcases Nat.lt_trichotomy u v with h | h | h
    · rw [if_pos h, if_pos (by nlinarith)]
    · subst h; simp
    · rw [if_neg (by omega), if_pos h, if_neg (by nlinarith), if_pos (by nlinarith)]

/-- The comparator, most-significant word first, decides the numeric order (R160). -/
theorem engineUcmp_eq (a b : Value) : engineUcmp a b = ucmp a b := by
  have ha : a.toNat % 2 ^ (64 * 64) = a.toNat := Nat.mod_eq_of_lt a.isLt
  have hb : b.toNat % 2 ^ (64 * 64) = b.toNat := Nat.mod_eq_of_lt b.isLt
  rw [engineUcmp, ucmpLoop_eq, ha, hb]
  rfl

theorem nonzeroLoop_iff (a : Value) (n : Nat) : nonzeroLoop a n = true ↔ a.toNat % 2 ^ (64 * n) ≠ 0 := by
  induction n with
  | zero => simp [nonzeroLoop, Nat.mod_one]
  | succ n ih =>
    rw [nonzeroLoop, Bool.or_eq_true, ih, toNat_mod_succ, bne_iff_ne, ne_eq, BitVec.toNat_eq]
    have : 0 < 2 ^ (64 * n) := by positivity
    simp only [BitVec.toNat_ofNat, Nat.zero_mod, ne_eq, Nat.add_eq_zero_iff, Nat.mul_eq_zero]
    constructor <;> intro h <;> by_contra hc <;> omega

/-- The zero test finds a nonzero word exactly in a nonzero value (R161). -/
theorem engineNonzero_eq (a : Value) : engineNonzero a = nonzero a := by
  rw [Bool.eq_iff_iff, engineNonzero, nonzeroLoop_iff, nonzero_iff, Nat.mod_eq_of_lt (show a.toNat < 2 ^ (64 * 64) from a.isLt)]

end Sys2Proof.Machine
end

