-- ==== Sys2Proof/Laws/NumberTheory.lean ====
section
/-! SUPPORT. The exponentiation loop ends by consuming its exponent, never by running out of fuel (R170, decision D18). -/

namespace Sys2Proof.Machine

theorem nonzero_eq_false_iff (a : Value) : nonzero a = false ↔ a.toNat = 0 := by
  rw [← Bool.not_eq_true, nonzero_iff, not_not]

/-- With the exponent consumed the loop returns its result, whatever fuel is left. -/
theorem modexpLoop_done (m : Value) (fuel : Nat) (result b e : Value) (he : e.toNat = 0) :
    modexpLoop m fuel result b e = result := by
  cases fuel with
  | zero => rfl
  | succ n => rw [modexpLoop, (nonzero_eq_false_iff e).2 he]; rfl

/-- The exponent after one turn (R170: "next exponent bit"). -/
theorem shr4096_one_toNat (e : Value) : (shr4096 e 1).toNat = e.toNat / 2 := by
  simp [shr4096, BitVec.toNat_ushiftRight, Nat.shiftRight_eq_div_pow]

/-- Fuel beyond the exponent's length changes nothing. -/
theorem modexpLoop_fuel (m : Value) (n k : Nat) (result b e : Value) (he : e.toNat < 2 ^ n) :
    modexpLoop m (n + k) result b e = modexpLoop m n result b e := by
  induction n generalizing result b e with
  | zero => rw [modexpLoop_done _ _ _ _ _ (by omega), modexpLoop_done _ _ _ _ _ (by omega)]
  | succ n ih =>
    have hsh : (shr4096 e 1).toNat < 2 ^ n := by rw [shr4096_one_toNat]; omega
    rw [show n + 1 + k = (n + k) + 1 by omega]
    simp only [modexpLoop]
    rw [ih _ _ _ hsh]

end Sys2Proof.Machine
end

