-- ==== Sys2Proof/Laws/State.lean ====
section
/-! SUPPORT. One lemma for each field of State under each named update, so that no proof unfolds a record update. -/

namespace Sys2Proof.Machine

@[simp] theorem State.writeReg_regs (s : State) (r : VReg) (v : Value) : (s.writeReg r v).regs = s.regs.set r.val v r.isLt := rfl
@[simp] theorem State.writeReg_arg (s : State) (r : VReg) (v : Value) : (s.writeReg r v).arg = s.arg := rfl
@[simp] theorem State.writeReg_cmdr (s : State) (r : VReg) (v : Value) : (s.writeReg r v).cmdr = s.cmdr := rfl
@[simp] theorem State.writeReg_status (s : State) (r : VReg) (v : Value) : (s.writeReg r v).status = s.status := rfl
@[simp] theorem State.writeReg_pend (s : State) (r : VReg) (v : Value) : (s.writeReg r v).pend = s.pend := rfl
@[simp] theorem State.writeReg_agenda (s : State) (r : VReg) (v : Value) : (s.writeReg r v).agenda = s.agenda := rfl
@[simp] theorem State.writeReg_received (s : State) (r : VReg) (v : Value) : (s.writeReg r v).received = s.received := rfl
@[simp] theorem State.writeReg_draws (s : State) (r : VReg) (v : Value) : (s.writeReg r v).draws = s.draws := rfl

@[simp] theorem State.accept_regs (s : State) (c : Word) : (s.accept c).regs = s.regs := rfl
@[simp] theorem State.accept_arg (s : State) (c : Word) : (s.accept c).arg = s.arg := rfl
@[simp] theorem State.accept_cmdr (s : State) (c : Word) : (s.accept c).cmdr = c := rfl
@[simp] theorem State.accept_status (s : State) (c : Word) : (s.accept c).status =
    { s.status with busy := true, done := false, err := false, berr := false, errcode := .none } := rfl
@[simp] theorem State.accept_pend (s : State) (c : Word) : (s.accept c).pend =
    some { cmd := c, regs := s.regs, arg := s.arg } := rfl
@[simp] theorem State.accept_agenda (s : State) (c : Word) : (s.accept c).agenda = s.agenda := rfl
@[simp] theorem State.accept_received (s : State) (c : Word) : (s.accept c).received = s.received := rfl
@[simp] theorem State.accept_draws (s : State) (c : Word) : (s.accept c).draws = s.draws := rfl

@[simp] theorem State.finishError_regs (s : State) (code : ErrCode) : (s.finishError code).regs = s.regs := rfl
@[simp] theorem State.finishError_arg (s : State) (code : ErrCode) : (s.finishError code).arg = s.arg := rfl
@[simp] theorem State.finishError_cmdr (s : State) (code : ErrCode) : (s.finishError code).cmdr = s.cmdr := rfl
@[simp] theorem State.finishError_status (s : State) (code : ErrCode) : (s.finishError code).status =
    { s.status with err := true, errcode := code, done := true, busy := false } := rfl
@[simp] theorem State.finishError_pend (s : State) (code : ErrCode) : (s.finishError code).pend = none := rfl
@[simp] theorem State.finishError_agenda (s : State) (code : ErrCode) : (s.finishError code).agenda = s.agenda := rfl
@[simp] theorem State.finishError_received (s : State) (code : ErrCode) : (s.finishError code).received = s.received := rfl
@[simp] theorem State.finishError_draws (s : State) (code : ErrCode) : (s.finishError code).draws = s.draws := rfl

@[simp] theorem State.finishOk_regs (s : State) : (s.finishOk).regs = s.regs := rfl
@[simp] theorem State.finishOk_arg (s : State) : (s.finishOk).arg = s.arg := rfl
@[simp] theorem State.finishOk_cmdr (s : State) : (s.finishOk).cmdr = s.cmdr := rfl
@[simp] theorem State.finishOk_status (s : State) : (s.finishOk).status =
    { s.status with err := false, errcode := .none, done := true, busy := false } := rfl
@[simp] theorem State.finishOk_pend (s : State) : (s.finishOk).pend = none := rfl
@[simp] theorem State.finishOk_agenda (s : State) : (s.finishOk).agenda = s.agenda := rfl
@[simp] theorem State.finishOk_received (s : State) : (s.finishOk).received = s.received := rfl
@[simp] theorem State.finishOk_draws (s : State) : (s.finishOk).draws = s.draws := rfl

@[simp] theorem State.finishWrite_regs (s : State) (r : VReg) (v : Value) : (s.finishWrite r v).regs =
    s.regs.set r.val v r.isLt := rfl
@[simp] theorem State.finishWrite_arg (s : State) (r : VReg) (v : Value) : (s.finishWrite r v).arg = s.arg := rfl
@[simp] theorem State.finishWrite_cmdr (s : State) (r : VReg) (v : Value) : (s.finishWrite r v).cmdr = s.cmdr := rfl
@[simp] theorem State.finishWrite_status (s : State) (r : VReg) (v : Value) : (s.finishWrite r v).status =
    { s.status with err := false, errcode := .none, done := true, busy := false } := rfl
@[simp] theorem State.finishWrite_pend (s : State) (r : VReg) (v : Value) : (s.finishWrite r v).pend = none := rfl
@[simp] theorem State.finishWrite_agenda (s : State) (r : VReg) (v : Value) : (s.finishWrite r v).agenda = s.agenda := rfl
@[simp] theorem State.finishWrite_received (s : State) (r : VReg) (v : Value) : (s.finishWrite r v).received = s.received := rfl
@[simp] theorem State.finishWrite_draws (s : State) (r : VReg) (v : Value) : (s.finishWrite r v).draws = s.draws := rfl

@[simp] theorem State.setOrder_regs (s : State) (o : Ordering) : (s.setOrder o).regs = s.regs := rfl
@[simp] theorem State.setOrder_arg (s : State) (o : Ordering) : (s.setOrder o).arg = s.arg := rfl
@[simp] theorem State.setOrder_cmdr (s : State) (o : Ordering) : (s.setOrder o).cmdr = s.cmdr := rfl
@[simp] theorem State.setOrder_status (s : State) (o : Ordering) : (s.setOrder o).status =
    { s.status with lt := o == .lt, eq := o == .eq, gt := o == .gt } := rfl
@[simp] theorem State.setOrder_pend (s : State) (o : Ordering) : (s.setOrder o).pend = s.pend := rfl
@[simp] theorem State.setOrder_agenda (s : State) (o : Ordering) : (s.setOrder o).agenda = s.agenda := rfl
@[simp] theorem State.setOrder_received (s : State) (o : Ordering) : (s.setOrder o).received = s.received := rfl
@[simp] theorem State.setOrder_draws (s : State) (o : Ordering) : (s.setOrder o).draws = s.draws := rfl

@[simp] theorem State.setNz_regs (s : State) (b : Bool) : (s.setNz b).regs = s.regs := rfl
@[simp] theorem State.setNz_arg (s : State) (b : Bool) : (s.setNz b).arg = s.arg := rfl
@[simp] theorem State.setNz_cmdr (s : State) (b : Bool) : (s.setNz b).cmdr = s.cmdr := rfl
@[simp] theorem State.setNz_status (s : State) (b : Bool) : (s.setNz b).status = { s.status with nz := b } := rfl
@[simp] theorem State.setNz_pend (s : State) (b : Bool) : (s.setNz b).pend = s.pend := rfl
@[simp] theorem State.setNz_agenda (s : State) (b : Bool) : (s.setNz b).agenda = s.agenda := rfl
@[simp] theorem State.setNz_received (s : State) (b : Bool) : (s.setNz b).received = s.received := rfl
@[simp] theorem State.setNz_draws (s : State) (b : Bool) : (s.setNz b).draws = s.draws := rfl

@[simp] theorem State.setPrime_regs (s : State) (b : Bool) : (s.setPrime b).regs = s.regs := rfl
@[simp] theorem State.setPrime_arg (s : State) (b : Bool) : (s.setPrime b).arg = s.arg := rfl
@[simp] theorem State.setPrime_cmdr (s : State) (b : Bool) : (s.setPrime b).cmdr = s.cmdr := rfl
@[simp] theorem State.setPrime_status (s : State) (b : Bool) : (s.setPrime b).status = { s.status with prime := b } := rfl
@[simp] theorem State.setPrime_pend (s : State) (b : Bool) : (s.setPrime b).pend = s.pend := rfl
@[simp] theorem State.setPrime_agenda (s : State) (b : Bool) : (s.setPrime b).agenda = s.agenda := rfl
@[simp] theorem State.setPrime_received (s : State) (b : Bool) : (s.setPrime b).received = s.received := rfl
@[simp] theorem State.setPrime_draws (s : State) (b : Bool) : (s.setPrime b).draws = s.draws := rfl

@[simp] theorem State.setBerr_regs (s : State) : (s.setBerr).regs = s.regs := rfl
@[simp] theorem State.setBerr_arg (s : State) : (s.setBerr).arg = s.arg := rfl
@[simp] theorem State.setBerr_cmdr (s : State) : (s.setBerr).cmdr = s.cmdr := rfl
@[simp] theorem State.setBerr_status (s : State) : (s.setBerr).status = { s.status with berr := true } := rfl
@[simp] theorem State.setBerr_pend (s : State) : (s.setBerr).pend = s.pend := rfl
@[simp] theorem State.setBerr_agenda (s : State) : (s.setBerr).agenda = s.agenda := rfl
@[simp] theorem State.setBerr_received (s : State) : (s.setBerr).received = s.received := rfl
@[simp] theorem State.setBerr_draws (s : State) : (s.setBerr).draws = s.draws := rfl

@[simp] theorem State.writeArg_regs (s : State) (d : Word) : (s.writeArg d).regs = s.regs := rfl
@[simp] theorem State.writeArg_arg (s : State) (d : Word) : (s.writeArg d).arg = d := rfl
@[simp] theorem State.writeArg_cmdr (s : State) (d : Word) : (s.writeArg d).cmdr = s.cmdr := rfl
@[simp] theorem State.writeArg_status (s : State) (d : Word) : (s.writeArg d).status = s.status := rfl
@[simp] theorem State.writeArg_pend (s : State) (d : Word) : (s.writeArg d).pend = s.pend := rfl
@[simp] theorem State.writeArg_agenda (s : State) (d : Word) : (s.writeArg d).agenda = s.agenda := rfl
@[simp] theorem State.writeArg_received (s : State) (d : Word) : (s.writeArg d).received = s.received := rfl
@[simp] theorem State.writeArg_draws (s : State) (d : Word) : (s.writeArg d).draws = s.draws := rfl

@[simp] theorem State.respond_regs (s : State) (d : Word) : (s.respond d).regs = s.regs := rfl
@[simp] theorem State.respond_arg (s : State) (d : Word) : (s.respond d).arg = s.arg := rfl
@[simp] theorem State.respond_cmdr (s : State) (d : Word) : (s.respond d).cmdr = s.cmdr := rfl
@[simp] theorem State.respond_status (s : State) (d : Word) : (s.respond d).status = s.status := rfl
@[simp] theorem State.respond_pend (s : State) (d : Word) : (s.respond d).pend = s.pend := rfl
@[simp] theorem State.respond_agenda (s : State) (d : Word) : (s.respond d).agenda = s.agenda := rfl
@[simp] theorem State.respond_received (s : State) (d : Word) : (s.respond d).received = s.received ++ [d] := rfl
@[simp] theorem State.respond_draws (s : State) (d : Word) : (s.respond d).draws = s.draws := rfl

@[simp] theorem State.portRead_regs (s : State) (off : BitVec 16) : (s.portRead off).regs = s.regs := rfl
@[simp] theorem State.portRead_arg (s : State) (off : BitVec 16) : (s.portRead off).arg = s.arg := rfl
@[simp] theorem State.portRead_cmdr (s : State) (off : BitVec 16) : (s.portRead off).cmdr = s.cmdr := rfl
@[simp] theorem State.portRead_status (s : State) (off : BitVec 16) : (s.portRead off).status = s.status := rfl
@[simp] theorem State.portRead_pend (s : State) (off : BitVec 16) : (s.portRead off).pend = s.pend := rfl
@[simp] theorem State.portRead_agenda (s : State) (off : BitVec 16) : (s.portRead off).agenda = s.agenda := rfl
@[simp] theorem State.portRead_received (s : State) (off : BitVec 16) : (s.portRead off).received =
    s.received ++ [s.portData off] := rfl
@[simp] theorem State.portRead_draws (s : State) (off : BitVec 16) : (s.portRead off).draws = s.draws + s.portDraws off := rfl

/-- With a command in flight, the operands are PEND's (R93, R201). -/
@[simp] theorem State.src_of_pend (s : State) (p : Pending) (h : s.pend = some p) (r : VReg) : s.src r = p.regs[r] := by
  simp [State.src, State.snapshot, h]

@[simp] theorem State.srcArg_of_pend (s : State) (p : Pending) (h : s.pend = some p) : s.srcArg = p.arg := by
  simp [State.srcArg, State.snapshot, h]

/-- Taking an event off the agenda leaves the operands alone. -/
@[simp] theorem State.src_agenda (s : State) (l : List Event) (r : VReg) : State.src { s with agenda := l } r = s.src r := rfl

/-- Writing a register leaves every other register alone. -/
theorem State.writeReg_other (s : State) (r r' : VReg) (v : Value) (h : r' ≠ r) : (s.writeReg r v).regs[r'] = s.regs[r'] := by
  have : r.val ≠ r'.val := fun e => h (Fin.ext e.symm)
  simp [Vector.getElem_set_ne _ _ this]

/-- The register written reads back. -/
theorem State.writeReg_same (s : State) (r : VReg) (v : Value) : (s.writeReg r v).regs[r] = v := by simp

end Sys2Proof.Machine
end

