-- ==== Sys2Proof/Laws/Ops.lean ====
section
/-! SUPPORT. What the shared operations can do, each said once: the address map, a port write, a completion, a step. -/

namespace Sys2Proof.Machine

/-! ### The address map -/

/-- The window's offsets name their words (R54). -/
theorem portTarget_vwinOffset (v : VReg) (w : Fin 64) : portTarget (vwinOffset v w) = .vwin v w := by
  have hv := v.isLt
  have hw := w.isLt
  have hoff : (vwinOffset v w).toNat = 0x1000 + 0x200 * v.val + 8 * w.val := by
    simp only [vwinOffset, BitVec.toNat_ofNat]; omega
  simp only [portTarget, hoff]
  rw [if_neg (by omega), if_neg (by omega), if_neg (by omega), if_neg (by omega), if_neg (by omega), if_pos (by omega)]
  congr 1 <;> apply Fin.ext <;> simp only [Fin.ofNat] <;> omega

/-- An offset that names a window word is that word's offset (R54). -/
theorem eq_vwinOffset_of_portTarget (off : BitVec 16) (v : VReg) (w : Fin 64) (h : portTarget off = .vwin v w) :
    off = vwinOffset v w := by
  apply BitVec.eq_of_toNat_eq
  simp only [portTarget] at h
  split at h <;> [simp at h; skip]
  split at h <;> [simp at h; skip]
  split at h <;> [simp at h; skip]
  split at h <;> [simp at h; skip]
  split at h <;> [simp at h; skip]
  split at h
  · simp only [PortTarget.vwin.injEq, Fin.ext_iff, Fin.ofNat] at h
    simp only [vwinOffset, BitVec.toNat_ofNat]
    omega
  · simp at h

/-- The CMD offset, and no other, issues commands (R53). -/
theorem portTarget_eq_cmd (off : BitVec 16) : portTarget off = .cmd ↔ off = 0x0008#16 := by
  constructor
  · intro h
    apply BitVec.eq_of_toNat_eq
    simp only [portTarget] at h
    split at h <;> [simp at h; skip]
    split at h <;> [simp at h; skip]
    split at h
    · assumption
    · split at h <;> [simp at h; skip]
      split at h <;> [simp at h; skip]
      split at h <;> simp at h
  · rintro rfl
    decide

/-- The ARG offset, and no other, names ARG (R53). -/
theorem portTarget_eq_arg (off : BitVec 16) : portTarget off = .arg ↔ off = 0x0018#16 := by
  constructor
  · intro h
    apply BitVec.eq_of_toNat_eq
    simp only [portTarget] at h
    split at h <;> [simp at h; skip]
    split at h <;> [simp at h; skip]
    split at h <;> [simp at h; skip]
    split at h <;> [simp at h; skip]
    split at h
    · assumption
    · split at h <;> simp at h
  · rintro rfl
    decide

/-- What a port write can do (R52, R57, R58, R201): nothing (never for the CMD offset), set BERR, accept a command, write ARG, or
write a window word. -/
theorem portWrite_cases (s : State) (off : BitVec 16) (d : Word) :
    (off ≠ 0x0008#16 ∧ s.portWrite off d = s) ∨
    (s.status.busy = true ∧ s.portWrite off d = s.setBerr) ∨
    (s.status.busy = false ∧ off = 0x0008#16 ∧ s.portWrite off d = s.accept d) ∨
    (s.status.busy = false ∧ off = 0x0018#16 ∧ s.portWrite off d = s.writeArg d) ∨
    (s.status.busy = false ∧ off ≠ 0x0008#16 ∧ ∃ v w, off = vwinOffset v w ∧
      s.portWrite off d = s.writeReg v (setWord s.regs[v] w.val d)) := by
  have hne : portTarget off ≠ .cmd → off ≠ 0x0008#16 := fun h e => h ((portTarget_eq_cmd off).2 e)
  unfold State.portWrite
  split
  · next h => exact .inl ⟨hne (by simp [h]), rfl⟩
  · next h => exact .inl ⟨hne (by simp [h]), rfl⟩
  · next h =>
    cases hb : s.status.busy
    · exact .inr (.inr (.inl ⟨rfl, (portTarget_eq_cmd off).1 h, rfl⟩))
    · exact .inr (.inl ⟨rfl, rfl⟩)
  · next h => exact .inl ⟨hne (by simp [h]), rfl⟩
  · next h =>
    cases hb : s.status.busy
    · exact .inr (.inr (.inr (.inl ⟨rfl, (portTarget_eq_arg off).1 h, rfl⟩)))
    · exact .inr (.inl ⟨rfl, rfl⟩)
  · next v w h =>
    cases hb : s.status.busy
    · exact .inr (.inr (.inr (.inr ⟨rfl, hne (by simp [h]), v, w, eq_vwinOffset_of_portTarget off v w h, rfl⟩)))
    · exact .inr (.inl ⟨rfl, rfl⟩)
  · next h => exact .inl ⟨hne (by simp [h]), rfl⟩

/-! ### Completions -/

/-- What a command's completion can do (R202): an error completion, or a success that writes one register, or a success that
writes the flags of CMP, TST or ISPRIME. -/
theorem exec_cases (i : Instr) (s : State) :
    (∃ code, code ≠ ErrCode.none ∧ exec i s = .next (s.finishError code)) ∨
    (∃ rd v, exec i s = .next (s.finishWrite rd v)) ∨
    (∃ o, exec i s = .next (s.setOrder o).finishOk) ∨
    (∃ b, exec i s = .next (s.setNz b).finishOk) ∨
    (∃ b, exec i s = .next (s.setPrime b).finishOk) := by
  cases i with
  | add rd rs1 rs2 => exact .inr (.inl ⟨_, _, rfl⟩)
  | sub rd rs1 rs2 => exact .inr (.inl ⟨_, _, rfl⟩)
  | mul rd rs1 rs2 => exact .inr (.inl ⟨_, _, rfl⟩)
  | div rd rs1 rs2 =>
    simp only [exec, execDiv]
    split
    · exact .inr (.inl ⟨_, _, rfl⟩)
    · exact .inl ⟨_, by decide, rfl⟩
  | mod rd rs1 rs2 =>
    simp only [exec, execMod]
    split
    · exact .inr (.inl ⟨_, _, rfl⟩)
    · exact .inl ⟨_, by decide, rfl⟩
  | modexp rd rs1 rs2 rs3 =>
    simp only [exec, execModexp]
    split
    · exact .inr (.inl ⟨_, _, rfl⟩)
    · exact .inl ⟨_, by decide, rfl⟩
  | isprime rs1 rounds =>
    simp only [exec, execIsprime]
    split
    · exact .inl ⟨_, by decide, rfl⟩
    · exact .inr (.inr (.inr (.inr ⟨_, rfl⟩)))
  | and rd rs1 rs2 => exact .inr (.inl ⟨_, _, rfl⟩)
  | or rd rs1 rs2 => exact .inr (.inl ⟨_, _, rfl⟩)
  | xor rd rs1 rs2 => exact .inr (.inl ⟨_, _, rfl⟩)
  | not rd rs1 => exact .inr (.inl ⟨_, _, rfl⟩)
  | shl rd rs1 k => exact .inr (.inl ⟨_, _, rfl⟩)
  | shr rd rs1 k => exact .inr (.inl ⟨_, _, rfl⟩)
  | cmp rs1 rs2 => exact .inr (.inr (.inl ⟨_, rfl⟩))
  | tst rs1 => exact .inr (.inr (.inr (.inl ⟨_, rfl⟩)))
  | ldi rd => exact .inr (.inl ⟨_, _, rfl⟩)

/-- What the engine's completion step can do: as `exec_cases`, an illegal word being an error completion (R207). -/
theorem complete_cases (s : State) :
    (∃ code, code ≠ ErrCode.none ∧ complete s = .next (s.finishError code)) ∨
    (∃ rd v, complete s = .next (s.finishWrite rd v)) ∨
    (∃ o, complete s = .next (s.setOrder o).finishOk) ∨
    (∃ b, complete s = .next (s.setNz b).finishOk) ∨
    (∃ b, complete s = .next (s.setPrime b).finishOk) := by
  unfold complete
  split
  · exact .inl ⟨_, by decide, rfl⟩
  · exact exec_cases _ _

/-! ### Steps -/

/-- What a step can do: the engine idles, the engine completes the command in flight, the host transacts, or `rst` resets. -/
theorem step_cases (s : State) :
    ((s.agenda = [] ∨ ∃ rest, s.agenda = .engine :: rest) ∧ s.status.busy = false ∧
      step s = .next { s with agenda := s.agenda.tail }) ∨
    ((s.agenda = [] ∨ ∃ rest, s.agenda = .engine :: rest) ∧ s.status.busy = true ∧
      step s = complete { s with agenda := s.agenda.tail }) ∨
    (∃ t rest, s.agenda = .host t :: rest ∧ step s = .next (State.transact t { s with agenda := rest })) ∨
    (∃ presented rest, s.agenda = .reset presented :: rest ∧
      step s = .next (State.hardReset presented { s with agenda := rest })) := by
  unfold step nextEvent engineTurn
  split
  · next h =>
    have hs : { s with agenda := s.agenda.tail } = s := by
      cases s; simp only at h; subst h; rfl
    cases hb : s.status.busy
    · exact .inl ⟨.inl h, rfl, by rw [hs]; rfl⟩
    · exact .inr (.inl ⟨.inl h, rfl, by rw [hs]; rfl⟩)
  · next rest h =>
    cases hb : s.status.busy
    · exact .inl ⟨.inr ⟨rest, h⟩, rfl, by rw [h]; rfl⟩
    · exact .inr (.inl ⟨.inr ⟨rest, h⟩, rfl, by rw [h]; rfl⟩)
  · next t rest h => exact .inr (.inr (.inl ⟨t, rest, h, rfl⟩))
  · next presented rest h => exact .inr (.inr (.inr ⟨presented, rest, h, rfl⟩))

end Sys2Proof.Machine
end

