-- ==== Sys2Proof/Laws/PerInstr.lean ====
section
/-! SUPPORT. Per command: its encoding matches a row of the opcode table (R85). -/

namespace Sys2Proof.Laws.EncodeMatchesRow

/-- The command word of `i` matches a row of the opcode table: no bit its row fixes is lost or set wrong (R85, R86). -/
def Statement (i : Instr) : Prop := ∃ row ∈ opcodeTable, row.matchesWord (encode i) = true

/-- An assembled word matches a row whose mask, field by field, leaves the row's pattern. -/
theorem matchesWord_assemble (row : OpcodeRow) (op mop : BitVec 8) (rd rs1 rs2 rs3 : VReg) (imm : Nat)
    (md m1 m2 m3 : BitVec 4) (mrsv : BitVec 8) (mimm : BitVec 32) (hmask : row.mask = joinFields mop md m1 m2 m3 mrsv mimm)
    (hpat : row.pattern = joinFields (op &&& mop) (BitVec.ofFin rd &&& md) (BitVec.ofFin rs1 &&& m1)
      (BitVec.ofFin rs2 &&& m2) (BitVec.ofFin rs3 &&& m3) (0#8 &&& mrsv) (BitVec.ofNat 32 imm &&& mimm)) :
    row.matchesWord (assemble op rd rs1 rs2 rs3 imm) = true := by
  rw [OpcodeRow.matchesWord, beq_iff_eq, assemble, hmask, joinFields_and, hpat]

theorem add (rd rs1 rs2 : VReg) : Statement (.add rd rs1 rs2) :=
  ⟨opcodeTable[0], by simp [opcodeTable], matchesWord_assemble _ _ 0xFF _ _ _ _ _ 0 0 0 0xF 0xFF 0xFFFFFFFF (by decide)
    (by simp [opcodeTable]; try decide)⟩

theorem sub (rd rs1 rs2 : VReg) : Statement (.sub rd rs1 rs2) :=
  ⟨opcodeTable[1], by simp [opcodeTable], matchesWord_assemble _ _ 0xFF _ _ _ _ _ 0 0 0 0xF 0xFF 0xFFFFFFFF (by decide)
    (by simp [opcodeTable]; try decide)⟩

theorem mul (rd rs1 rs2 : VReg) : Statement (.mul rd rs1 rs2) :=
  ⟨opcodeTable[2], by simp [opcodeTable], matchesWord_assemble _ _ 0xFF _ _ _ _ _ 0 0 0 0xF 0xFF 0xFFFFFFFF (by decide)
    (by simp [opcodeTable]; try decide)⟩

theorem div (rd rs1 rs2 : VReg) : Statement (.div rd rs1 rs2) :=
  ⟨opcodeTable[3], by simp [opcodeTable], matchesWord_assemble _ _ 0xFF _ _ _ _ _ 0 0 0 0xF 0xFF 0xFFFFFFFF (by decide)
    (by simp [opcodeTable]; try decide)⟩

theorem mod (rd rs1 rs2 : VReg) : Statement (.mod rd rs1 rs2) :=
  ⟨opcodeTable[4], by simp [opcodeTable], matchesWord_assemble _ _ 0xFF _ _ _ _ _ 0 0 0 0xF 0xFF 0xFFFFFFFF (by decide)
    (by simp [opcodeTable]; try decide)⟩

theorem modexp (rd rs1 rs2 rs3 : VReg) : Statement (.modexp rd rs1 rs2 rs3) :=
  ⟨opcodeTable[5], by simp [opcodeTable], matchesWord_assemble _ _ 0xFF _ _ _ _ _ 0 0 0 0 0xFF 0xFFFFFFFF (by decide)
    (by simp [opcodeTable]; try decide)⟩

theorem isprime (rs1 : VReg) (rounds : Nat) : Statement (.isprime rs1 rounds) :=
  ⟨opcodeTable[6], by simp [opcodeTable], matchesWord_assemble _ _ 0xFF _ _ _ _ _ 0xF 0 0xF 0xF 0xFF 0 (by decide)
    (by simp [opcodeTable]; try decide)⟩

theorem and (rd rs1 rs2 : VReg) : Statement (.and rd rs1 rs2) :=
  ⟨opcodeTable[7], by simp [opcodeTable], matchesWord_assemble _ _ 0xFF _ _ _ _ _ 0 0 0 0xF 0xFF 0xFFFFFFFF (by decide)
    (by simp [opcodeTable]; try decide)⟩

theorem or (rd rs1 rs2 : VReg) : Statement (.or rd rs1 rs2) :=
  ⟨opcodeTable[8], by simp [opcodeTable], matchesWord_assemble _ _ 0xFF _ _ _ _ _ 0 0 0 0xF 0xFF 0xFFFFFFFF (by decide)
    (by simp [opcodeTable]; try decide)⟩

theorem xor (rd rs1 rs2 : VReg) : Statement (.xor rd rs1 rs2) :=
  ⟨opcodeTable[9], by simp [opcodeTable], matchesWord_assemble _ _ 0xFF _ _ _ _ _ 0 0 0 0xF 0xFF 0xFFFFFFFF (by decide)
    (by simp [opcodeTable]; try decide)⟩

theorem not (rd rs1 : VReg) : Statement (.not rd rs1) :=
  ⟨opcodeTable[10], by simp [opcodeTable], matchesWord_assemble _ _ 0xFF _ _ _ _ _ 0 0 0xF 0xF 0xFF 0xFFFFFFFF (by decide)
    (by simp [opcodeTable]; try decide)⟩

theorem shl (rd rs1 : VReg) (k : Nat) : Statement (.shl rd rs1 k) :=
  ⟨opcodeTable[11], by simp [opcodeTable], matchesWord_assemble _ _ 0xFF _ _ _ _ _ 0 0 0xF 0xF 0xFF 0 (by decide)
    (by simp [opcodeTable]; try decide)⟩

theorem shr (rd rs1 : VReg) (k : Nat) : Statement (.shr rd rs1 k) :=
  ⟨opcodeTable[12], by simp [opcodeTable], matchesWord_assemble _ _ 0xFF _ _ _ _ _ 0 0 0xF 0xF 0xFF 0 (by decide)
    (by simp [opcodeTable]; try decide)⟩

theorem cmp (rs1 rs2 : VReg) : Statement (.cmp rs1 rs2) :=
  ⟨opcodeTable[13], by simp [opcodeTable], matchesWord_assemble _ _ 0xFF _ _ _ _ _ 0xF 0 0 0xF 0xFF 0xFFFFFFFF (by decide)
    (by simp [opcodeTable]; try decide)⟩

theorem tst (rs1 : VReg) : Statement (.tst rs1) :=
  ⟨opcodeTable[14], by simp [opcodeTable], matchesWord_assemble _ _ 0xFF _ _ _ _ _ 0xF 0 0xF 0xF 0xFF 0xFFFFFFFF (by decide)
    (by simp [opcodeTable]; try decide)⟩

theorem ldi (rd : VReg) : Statement (.ldi rd) :=
  ⟨opcodeTable[15], by simp [opcodeTable], matchesWord_assemble _ _ 0xFF _ _ _ _ _ 0 0xF 0xF 0xF 0xFF 0xFFFFFFFF (by decide)
    (by simp [opcodeTable]; try decide)⟩

end Sys2Proof.Laws.EncodeMatchesRow
end

