-- ==== Sys2Proof/Laws/Run.lean ====
section
/-! SUPPORT. How a run of the machine behind the host's interface unfolds. -/

namespace Sys2Proof.Machine

/-- A run of no steps stays where it is. -/
theorem run_zero (s : State) : Sys2Proof.core.run 0 s = .next s := rfl

/-- A run of one step more begins with a step. -/
theorem run_succ (n : Nat) (s u : State) (h : step s = .next u) :
    Sys2Proof.core.run (n + 1) s = Sys2Proof.core.run n u := by
  have hc : Sys2Proof.core.step s = .next u := h
  simp only [Host.Core.run, hc]

end Sys2Proof.Machine
end

