-- ==== Sys2Proof/Tests/Slice0.lean ====
section
/-! SUPPORT. Tests: the well-formedness smoke, decoding of words written out from the spec's encodings, one-step tests from the
vectors and examples of spec/95_test_vectors.md and of the commands' rules, and for each obligation with hypotheses a state
and operands that meet them. -/

namespace Sys2Proof.Tests

set_option exponentiation.threshold 5000
-- One theorem after the other: each `decide +kernel` waits for the kernel, and side by side they would need a thread each.
set_option Elab.async false

open Sys2Proof Sys2Proof.Machine

/-! ### States and observations -/

/-- An idle machine whose V0, V1, … hold the listed values (0 past the list). -/
def idle (vs : List Value) (arg : Word) : State :=
  { State.reset with regs := Vector.ofFn fun i => vs.getD i.val 0#4096, arg := arg }

/-- The same machine with the command word `c` accepted. -/
def inFlight (vs : List Value) (arg c : Word) : State := (idle vs arg).accept c

/-- With the events `es` to come. -/
def facing (es : List Event) (s : State) : State := { s with agenda := es }

/-- The next step with the command word `w` placed. -/
def runWord (vs : List Value) (arg : Word) (w : Nat) : Host.Outcome State Fault Refusal :=
  step ((idle vs arg).withFetchWord 64 w)

def regAfter (r : VReg) : Host.Outcome State Fault Refusal → Option Value
  | .next t => some t.regs[r]
  | .fault _ => none
  | .refused _ => none

def statusAfter : Host.Outcome State Fault Refusal → Option Word
  | .next t => some (statusWord t.status)
  | .fault _ => none
  | .refused _ => none

/-- Both at once: a register and the STATUS word. -/
def seen (r : VReg) (o : Host.Outcome State Fault Refusal) : Option Value × Option Word := (regAfter r o, statusAfter o)

def lastRead : Host.Outcome State Fault Refusal → Option Word
  | .next t => t.received.getLast?
  | .fault _ => none
  | .refused _ => none

def stateAfter : Host.Outcome State Fault Refusal → Option State
  | .next t => some t
  | .fault _ => none
  | .refused _ => none

/-- A next state, with the property `p`. -/
def reaches (p : State → Bool) : Host.Outcome State Fault Refusal → Bool
  | .next t => p t
  | .fault _ => false
  | .refused _ => false

theorem reaches_iff (p : State → Bool) (o : Host.Outcome State Fault Refusal) :
    reaches p o = true ↔ ∃ t, o = .next t ∧ p t = true := by
  cases o <;> simp [reaches]

/-- 2^k as a value. -/
def pow2 (k : Nat) : Value := BitVec.ofNat 4096 (2 ^ k)

/-! ### Well-formedness: the ill-formed terms, one for each check (R83) -/

theorem test_shl_count_too_wide : Instr.wellFormed (.shl 2 1 (2 ^ 32)) = false := by decide

theorem test_shr_count_too_wide : Instr.wellFormed (.shr 2 1 (2 ^ 32)) = false := by decide

theorem test_isprime_rounds_too_wide : Instr.wellFormed (.isprime 1 (2 ^ 32)) = false := by decide

/-- The largest immediates, and an ISPRIME that will report BAD_ROUNDS, are well formed. -/
theorem test_largest_immediates_fit :
    Instr.wellFormed (.shl 2 1 0xFFFFFFFF) = true ∧ Instr.wellFormed (.isprime 1 6) = true := by decide

/-! ### Decoding: words written out from R81 and R84 (IMM, RSV, RS3, RS2, RS1, RD, OP); most stand in the rules' examples -/

theorem test_decode_arithmetic :
    decode 0x0000000000021301#64 = .ok (.add 3 1 2) ∧ decode 0x0000000000021302#64 = .ok (.sub 3 1 2) ∧
    decode 0x0000000000021303#64 = .ok (.mul 3 1 2) ∧ decode 0x0000000000021304#64 = .ok (.div 3 1 2) ∧
    decode 0x0000000000021405#64 = .ok (.mod 4 1 2) := by decide +kernel

theorem test_decode_number_theory :
    decode 0x0000000000210306#64 = .ok (.modexp 3 0 1 2) ∧ decode 0x0000000500001007#64 = .ok (.isprime 1 5) := by
  decide +kernel

theorem test_decode_bitwise :
    decode 0x0000000000021310#64 = .ok (.and 3 1 2) ∧ decode 0x0000000000021311#64 = .ok (.or 3 1 2) ∧
    decode 0x0000000000021312#64 = .ok (.xor 3 1 2) ∧ decode 0x0000000000001213#64 = .ok (.not 2 1) := by decide +kernel

theorem test_decode_shifts :
    decode 0x00000FFF00001214#64 = .ok (.shl 2 1 4095) ∧ decode 0x00000FFF00001215#64 = .ok (.shr 2 1 4095) ∧
    decode 0xFFFFFFFF0000FE14#64 = .ok (.shl 14 15 0xFFFFFFFF) := by decide +kernel

theorem test_decode_compare_test_load :
    decode 0x0000000000021018#64 = .ok (.cmp 1 2) ∧ decode 0x0000000000001019#64 = .ok (.tst 1) ∧
    decode 0x0000000000000120#64 = .ok (.ldi 1) := by decide +kernel

/-- Fields with every bit set and with different values: no field is taken for another (R81). -/
theorem test_decode_fields_apart :
    decode 0x0000000000FEDC06#64 = .ok (.modexp 12 13 14 15) ∧ decode 0x00000000000F0F01#64 = .ok (.add 15 0 15) := by
  decide +kernel

/-- DEC-1, DEC-4 and DEC-10. -/
theorem test_decode_reserved_opcodes :
    decode 0#64 = .error .reservedOpcode ∧ decode 0x0000000000021016#64 = .error .reservedOpcode ∧
    decode 0xFFFFFFFFFFFFFFFF#64 = .error .reservedOpcode := by decide +kernel

/-- DEC-2, DEC-3, DEC-5 and DEC-7. -/
theorem test_decode_nonzero_unused_fields :
    decode 0x0000000001021301#64 = .error .nonzeroUnusedField ∧ decode 0x0000000100021301#64 = .error .nonzeroUnusedField ∧
    decode 0x0000000000021118#64 = .error .nonzeroUnusedField ∧ decode 0x0000000001600006#64 = .error .nonzeroUnusedField := by
  decide +kernel

theorem test_decodeTableWord :
    decodeTableWord 64 0x0000000600001007 = some (.isprime 1 6) ∧ decodeTableWord 64 0 = none ∧
    decodeTableWord 32 0xFFFFFFFF00021018 = some (.cmp 1 2) := by decide +kernel

theorem test_encode_examples :
    encode (.modexp 3 0 1 2) = 0x0000000000210306#64 ∧ encode (.shl 2 1 4095) = 0x00000FFF00001214#64 ∧
    encode (.isprime 1 5) = 0x0000000500001007#64 := by decide +kernel

/-! ### One step of each command (spec/95_test_vectors.md section 2) -/

/-- ADD-2: the carry out of the top word is lost, and no flag shows it. -/
theorem test_add_wraps : seen 3 (runWord [0, maxValue, 1] 0 0x21301) = (some 0, some 0x02) := by decide +kernel

/-- ADD-6: RD = RS1 = RS2. -/
theorem test_add_doubles : seen 1 (runWord [0, 5] 0 0x11101) = (some 10, some 0x02) := by decide +kernel

/-- SUB-4: the order of the operands, and the wrap. -/
theorem test_sub_wraps : seen 3 (runWord [0, 3, 5] 0 0x21302) = (some (maxValue - 1), some 0x02) := by decide +kernel

/-- SUB-7: RD = RS2, the old subtrahend is used. -/
theorem test_sub_reads_before_it_writes : seen 2 (runWord [0, 10, 3] 0 0x21202) = (some 7, some 0x02) := by decide +kernel

/-- MUL-5. -/
theorem test_mul_truncates : seen 3 (runWord [0, maxValue, maxValue] 0 0x21303) = (some 1, some 0x02) := by decide +kernel

/-- MUL-7. -/
theorem test_mul_top_bit : seen 3 (runWord [0, pow2 2047, pow2 2048] 0 0x21303) = (some (pow2 4095), some 0x02) := by
  decide +kernel

/-- DIV-7. -/
theorem test_div_wide : seen 3 (runWord [0, maxValue, pow2 64] 0 0x21304) = (some (pow2 4032 - 1), some 0x02) := by
  decide +kernel

/-- DIV-11: DIV_BY_ZERO leaves the destination. -/
theorem test_div_by_zero : seen 3 (runWord [0, 17, 0, 9] 0 0x21304) = (some 9, some 0x16) := by decide +kernel

/-- DIV-9, the MOD column. -/
theorem test_mod_wide : seen 4 (runWord [0, pow2 4095, maxValue] 0 0x21405) = (some (pow2 4095), some 0x02) := by decide +kernel

/-- DIV-11, the MOD column. -/
theorem test_mod_by_zero : seen 4 (runWord [0, 17, 0, 0, 9] 0 0x21405) = (some 9, some 0x16) := by decide +kernel

/-- BIT-1. -/
theorem test_and : seen 3 (runWord [0, 0xC, 0xA] 0 0x21310) = (some 0x8, some 0x02) := by decide +kernel

/-- BIT-2. -/
theorem test_or : seen 3 (runWord [0, 0xC, 0xA] 0 0x21311) = (some 0xE, some 0x02) := by decide +kernel

/-- BIT-3. -/
theorem test_xor : seen 3 (runWord [0, 0xC, 0xA] 0 0x21312) = (some 0x6, some 0x02) := by decide +kernel

/-- BIT-4: the high words that were zero too. -/
theorem test_not : seen 2 (runWord [0, 0] 0 0x1213) = (some (BitVec.ofNat 4096 (2 ^ 4096 - 1)), some 0x02) := by decide +kernel

/-- BIT-5. -/
theorem test_shl_to_the_top : seen 2 (runWord [0, 1] 0 0xFFF00001214) = (some (pow2 4095), some 0x02) := by decide +kernel

/-- BIT-13. -/
theorem test_shl_everything_out : seen 2 (runWord [0, 1, 7] 0 0xFFFFFFFF00001214) = (some 0, some 0x02) := by decide +kernel

/-- BIT-8: across a word. -/
theorem test_shr_across_words : seen 2 (runWord [0, pow2 64] 0 0x100001215) = (some (pow2 63), some 0x02) := by decide +kernel

/-- BIT-12. -/
theorem test_shr_everything_out : seen 2 (runWord [0, maxValue, 7] 0 0x100000001215) = (some 0, some 0x02) := by decide +kernel

/-- CMP-4. -/
theorem test_cmp_above : statusAfter (runWord [0, pow2 4095, pow2 4095 - 1] 0 0x21018) = some 0x402 := by decide +kernel

/-- CMP-6. -/
theorem test_cmp_below : statusAfter (runWord [0, 0, maxValue] 0 0x21018) = some 0x102 := by decide +kernel

/-- TST-1. -/
theorem test_tst_zero : statusAfter (runWord [0, 0] 0 0x1019) = some 0x002 := by decide +kernel

/-- TST-2: word 63 alone. -/
theorem test_tst_top_bit : statusAfter (runWord [0, pow2 4095] 0 0x1019) = some 0x802 := by decide +kernel

/-- LDI-3: no sign extension. -/
theorem test_ldi_zero_extends :
    seen 1 (runWord [0, maxValue] 0xFFFFFFFFFFFFFFFF 0x120) = (some (pow2 64 - 1), some 0x02) := by decide +kernel

/-- EXP-1. -/
theorem test_modexp : seen 3 (runWord [4, 13, 497] 0 0x210306) = (some 445, some 0x02) := by decide +kernel

/-- EXP-8: the truncating algorithm, not the mathematical power. -/
theorem test_modexp_truncates : seen 3 (runWord [pow2 4095, 2, maxValue, 5] 0 0x210306) = (some 0, some 0x02) := by
  decide +kernel

/-- EXP-11. -/
theorem test_modexp_zero_modulus : seen 3 (runWord [4, 13, 0, 9] 0 0x210306) = (some 9, some 0x26) := by decide +kernel

/-- EXP-2: the initial result is never reduced. -/
theorem test_modexp_zero_exponent : modexp4096 5 0 1 = 1 ∧ modexp4096 3 1 1 = 0 := by decide +kernel

/-- PRM-6 (the guard) and PRM-23. -/
theorem test_isprime :
    statusAfter (runWord [0, 5] 0 0x500001007) = some 0x1002 ∧
    statusAfter (runWord [0, 3215031751] 0 0x500001007) = some 0x0002 := by decide +kernel

/-- PRM-30: the round count is checked first. -/
theorem test_isprime_bad_rounds : statusAfter (runWord [0, 2] 0 0x600001007) = some 0x46 := by decide +kernel

/-- PRM-10, PRM-16, PRM-17, PRM-22 and PRM-25: the number of witnesses counts. -/
theorem test_isprime_rounds :
    isprime4096 9 0 = true ∧ isprime4096 2047 1 = true ∧ isprime4096 2047 2 = false ∧ isprime4096 3215031751 4 = true ∧
    isprime4096 (pow2 61 - 1) 5 = true := by decide +kernel

/-! ### The word-level engines (R110 to R118, R144, R145, R160) -/

/-- ADD-3, SUB-3 and MUL-2: carry, borrow and product across a word. -/
theorem test_engines_cross_words :
    engineAdd (pow2 64 - 1) 1 = pow2 64 ∧ engineSub (pow2 64) 1 = pow2 64 - 1 ∧
    word (engineMul (pow2 64 - 1) (pow2 64 - 1)) 0 = 1#64 ∧
    word (engineMul (pow2 64 - 1) (pow2 64 - 1)) 1 = 0xFFFFFFFFFFFFFFFE#64 := by decide +kernel

/-- BIT-7, BIT-14, BIT-8 and CMP-5. -/
theorem test_engines_shift_and_compare :
    word (engineShl 0xFFFFFFFFFFFFFFFF 4) 0 = 0xFFFFFFFFFFFFFFF0#64 ∧ word (engineShl 0xFFFFFFFFFFFFFFFF 4) 1 = 0xF#64 ∧
    word (engineShl 0xAB 64) 1 = 0xAB#64 ∧ engineShr (pow2 64) 1 = pow2 63 ∧
    engineUcmp (pow2 64) (pow2 64 - 1) = .gt := by decide +kernel

/-- W2 and W3, on the long-division engine. -/
theorem test_engine_divmod : engineDivmod 17 5 = (3, 2) := by decide +kernel

/-! ### Lifecycle, port and reset -/

/-- DEC-2 and DEC-7: ILLEGAL_CMD, before ZERO_MODULUS. -/
theorem test_illegal_command :
    statusAfter (runWord [] 0 0x1021301) = some 0x36 ∧ statusAfter (runWord [] 0 0x1600006) = some 0x36 := by decide +kernel

/-- Program P2's last command: an error keeps the flags (R26). -/
theorem test_error_keeps_flags :
    statusAfter (step { State.placeCommand 0x610506#64 (idle [4, 13, 497] 0) with
      status := { Status.reset with busy := true, eq := true } }) = some 0x226 := by decide +kernel

/-- R201: a CMD write while idle shows in CMDR and BUSY; the flags stay. -/
theorem test_acceptance :
    (match step (facing [.host (.write 0x0008#16 0x21301#64)] { idle [] 0 with
        status := { Status.reset with done := true, err := true, errcode := .divByZero, gt := true } }) with
      | .next t => some (t.cmdr, statusWord t.status)
      | .fault _ => none
      | .refused _ => none) = some (0x21301#64, 0x401#64) := by decide +kernel

/-- DEC-9: a write while BUSY sets BERR, and the command completes as if it had not been made. -/
theorem test_busy_write :
    seen 3 (Sys2Proof.core.run 2 (facing [.host (.write 0x1200#16 99#64), .engine] (inFlight [0, 1, 2] 0 0x21301#64))) =
      (some 3, some 0x0A) := by decide +kernel

/-- R54: the window's first and last word. -/
theorem test_window_write :
    regAfter 0 (step (facing [.host (.write 0x1000#16 5#64)] (idle [] 0))) = some 5 ∧
    regAfter 15 (step (facing [.host (.write 0x2FF8#16 5#64)] (idle [] 0))) = some (5 * pow2 4032) := by decide +kernel

/-- R54, R53: a window read and the reads of ID, ARG and a reserved offset. -/
theorem test_reads :
    lastRead (step (facing [.host (.read 0x1208#16)] (idle [0, 7 * pow2 64 + 3] 0))) = some 7#64 ∧
    lastRead (step (facing [.host (.read 0x0000#16)] (idle [] 0))) = some 0x4F50524940401001#64 ∧
    lastRead (step (facing [.host (.read 0x0018#16)] (idle [] 17))) = some 17#64 ∧
    lastRead (step (facing [.host (.read 0x3000#16)] (idle [1, 1] 17))) = some 0#64 := by decide +kernel

/-- R52: a misaligned write next to ARG. -/
theorem test_misaligned_write :
    stateAfter (step (facing [.host (.write 0x0019#16 5#64)] (idle [] 17))) = some (idle [] 17) := by decide +kernel

/-- R231, R233: reset abandons the command, and a read presented to it returns 0. -/
theorem test_reset_in_flight :
    stateAfter (step (facing [.reset (some (.read 0x0000#16))] (inFlight [1, 2] 5 0x21301#64))) =
      some (State.reset.respond 0#64) := by decide +kernel

/-! ### Witnesses: the hypotheses of each obligation can be met, each clause at a boundary of its range -/

theorem witness_ResetAbandonsWhateverWasInFlight :
    (∃ rest, (facing [.reset (some (.read 0#16)), .engine] (inFlight [1] 5 0x21301#64)).agenda =
      .reset (some (.read 0#16)) :: rest) ∧
    (∃ rest, (facing [.reset (some (.write 8#16 1#64))] (idle [1] 5)).agenda = .reset (some (.write 8#16 1#64)) :: rest) ∧
    (∃ rest, (facing [.reset none] (idle [1] 5)).agenda = .reset none :: rest) := ⟨⟨_, rfl⟩, ⟨_, rfl⟩, ⟨_, rfl⟩⟩

/-- Each kind of transaction presented to a reset. -/
theorem witness_TransactionsDuringResetHaveNoEffect (presented : Option Transaction) :
    ∃ rest, (facing [.reset presented, .engine] (inFlight [1] 5 0x21301#64)).agenda = .reset presented :: rest := ⟨_, rfl⟩

/-- A consistent state with a command in flight, facing a write that will be ignored. -/
theorem witness_consistent_busy (vs : List Value) (arg c : Word) (es : List Event) :
    (facing es (inFlight vs arg c)).Consistent ∧ (facing es (inFlight vs arg c)).status.busy = true := by
  refine ⟨⟨rfl, fun _ => rfl, ?_, ?_, ?_, ?_⟩, rfl⟩ <;> simp [facing, inFlight, idle, State.accept, State.reset, Status.reset]

theorem witness_StepKeepsConsistency :
    (facing [.host (.write 0x0008#16 1#64)] (inFlight [1, 2] 5 0x21301#64)).Consistent ∧
    reaches (fun _ => true) (step (facing [.host (.write 0x0008#16 1#64)] (inFlight [1, 2] 5 0x21301#64))) = true :=
  ⟨(witness_consistent_busy _ _ _ _).1, by decide +kernel⟩

theorem witness_EncodeThenDecodeGivesTheCommand :
    Instr.wellFormed (.shl 15 15 0xFFFFFFFF) = true ∧ Instr.wellFormed (.isprime 15 0) = true ∧
    Instr.wellFormed (.modexp 15 15 15 15) = true := by decide

theorem witness_DecodeThenEncodeGivesTheWord : decode 0xFFFFFFFF0000FF15#64 = .ok (.shr 15 15 0xFFFFFFFF) := by decide +kernel

theorem witness_EveryWordMatchesOneRowOrIsIllegal :
    (∃ row ∈ opcodeTable, 0x21301#64 &&& row.mask = row.pattern) ∧
    (∀ row ∈ opcodeTable, 0#64 &&& row.mask ≠ row.pattern) := by decide +kernel

/-- Each end of each range of R87. -/
theorem witness_ReservedOpcodesAreIllegal :
    (∀ op ∈ [0x00, 0x08, 0x0F, 0x16, 0x17, 0x1A, 0x1F, 0x21, 0xFF],
      op = 0x00 ∨ (0x08 ≤ op ∧ op ≤ 0x0F) ∨ op = 0x16 ∨ op = 0x17 ∨ (0x1A ≤ op ∧ op ≤ 0x1F) ∨ (0x21 ≤ op ∧ op ≤ 0xFF)) ∧
    (∀ op ∈ [0x00, 0x08, 0x0F, 0x16, 0x17, 0x1A, 0x1F, 0x21, 0xFF],
      ((BitVec.ofNat 64 op).extractLsb' 0 8).toNat = op ∧ decode (BitVec.ofNat 64 op) = .error .reservedOpcode) ∧
    (inFlight [1] 5 0xFF#64).cmdr = 0xFF#64 ∧ (inFlight [1] 5 0xFF#64).status.busy = true ∧
    (inFlight [1] 5 0xFF#64).agenda = [] := by decide +kernel

/-- One word for each field that can be wrong: RSV, RD of CMP, RS1 of LDI, RS2 of NOT, RS3 of ADD, IMM of ADD. -/
theorem witness_NonzeroUnusedFieldsAreIllegal :
    ((0x01021301#64).extractLsb' 0 8 = 0x01#8 ∧ (0x01021301#64).extractLsb' 24 8 ≠ 0#8) ∧
    ((0x21118#64).extractLsb' 0 8 = 0x18#8 ∧ (0x21118#64).extractLsb' 8 4 ≠ 0#4) ∧
    ((0x1120#64).extractLsb' 0 8 = 0x20#8 ∧ (0x1120#64).extractLsb' 12 4 ≠ 0#4) ∧
    ((0x11213#64).extractLsb' 0 8 = 0x13#8 ∧ (0x11213#64).extractLsb' 16 4 ≠ 0#4) ∧
    ((0x121301#64).extractLsb' 0 8 = 0x01#8 ∧ (0x121301#64).extractLsb' 20 4 ≠ 0#4) ∧
    ((0x100021301#64).extractLsb' 0 8 = 0x01#8 ∧ (0x100021301#64).extractLsb' 32 32 ≠ 0#32) ∧
    [0x01021301#64, 0x21118#64, 0x1120#64, 0x11213#64, 0x121301#64, 0x100021301#64].map decode =
      List.replicate 6 (.error .nonzeroUnusedField) ∧
    (inFlight [1] 5 0x21118#64).cmdr = 0x21118#64 ∧ (inFlight [1] 5 0x21118#64).status.busy = true ∧
    (inFlight [1] 5 0x21118#64).agenda = [] := by decide +kernel

/-- Both turns of the engine: the agenda used up, and the engine next on it; with a command in flight and with none. -/
theorem witness_EngineTurnRunsTheDecodedCommand :
    (inFlight [1, 2] 5 0x21301#64).status.busy = true ∧ (inFlight [1, 2] 5 0x21301#64).agenda = [] ∧
    (∃ rest, (facing [.engine] (inFlight [1, 2] 5 0x21301#64)).agenda = .engine :: rest) ∧
    decode (inFlight [1, 2] 5 0x21301#64).cmdr = .ok (.add 3 1 2) ∧
    (idle [1, 2] 5).status.busy = false ∧ (idle [1, 2] 5).agenda = [] ∧
    (∃ rest, (facing [.engine] (idle [1, 2] 5)).agenda = .engine :: rest) :=
  ⟨rfl, rfl, ⟨_, rfl⟩, by decide +kernel, rfl, rfl, ⟨_, rfl⟩⟩

theorem witness_PlacedCommandWordRunsNext : decode 0x120#64 = .ok (.ldi 1) := by decide +kernel

/-- R201, while idle and while busy. -/
theorem witness_CommandWriteIsAcceptedWhenIdle :
    (∃ rest, (facing [.host (.write 0x0008#16 0#64)] (idle [] 0)).agenda = .host (.write 0x0008#16 0#64) :: rest) ∧
    (facing [.host (.write 0x0008#16 0#64)] (idle [] 0)).status.busy = false ∧
    (∃ rest, (facing [.host (.write 0x0008#16 0#64)] (inFlight [] 0 0#64)).agenda = .host (.write 0x0008#16 0#64) :: rest) ∧
    (facing [.host (.write 0x0008#16 0#64)] (inFlight [] 0 0#64)).status.busy = true := ⟨⟨_, rfl⟩, rfl, ⟨_, rfl⟩, rfl⟩

theorem witness_IllegalCommandCompletesWithIllegalCmd :
    (facing [.engine] (inFlight [1] 5 0x16#64)).status.busy = true ∧
    (∃ rest, (facing [.engine] (inFlight [1] 5 0x16#64)).agenda = .engine :: rest) ∧
    (∀ row ∈ opcodeTable, (facing [.engine] (inFlight [1] 5 0x16#64)).cmdr &&& row.mask ≠ row.pattern) :=
  ⟨rfl, ⟨_, rfl⟩, by decide +kernel⟩

/-- The four transitions of R200 happen: acceptance, completion, and reset of an idle and of a busy machine. -/
theorem witness_BusyChangesOnlyByAcceptanceCompletionOrReset :
    reaches (fun t => t.status.busy) (step (facing [.host (.write 0x0008#16 0#64)] (idle [] 0))) = true ∧
    reaches (fun t => !t.status.busy) (step (inFlight [] 0 0x120#64)) = true ∧
    reaches (fun t => !t.status.busy) (step (facing [.reset none] (inFlight [] 0 0x120#64))) = true := by decide +kernel

/-- A command in flight, with a transaction and a turn of the engine to come and no reset; and with nothing to come. -/
theorem witness_EveryCommandCompletesInBoundedSteps :
    (facing [.host (.write 0x0008#16 0#64), .engine] (inFlight [] 0 0x120#64)).status.busy = true ∧
    (∀ presented, Event.reset presented ∉
      (facing [.host (.write 0x0008#16 0#64), .engine] (inFlight [] 0 0x120#64)).agenda) ∧
    (inFlight [] 0 0x120#64).status.busy = true ∧ (∀ presented, Event.reset presented ∉ (inFlight [] 0 0x120#64).agenda) :=
  ⟨rfl, fun _ => by simp [facing], rfl, fun _ => by simp [inFlight, idle, State.accept, State.reset]⟩

theorem witness_HostCannotDisturbACommandInFlight :
    (facing [.host (.write 0x1200#16 9#64), .host (.read 0x1200#16), .engine] (inFlight [0, 1, 2] 5 0x21301#64)).status.busy =
      true ∧
    ∃ rest, (facing [.host (.write 0x1200#16 9#64), .host (.read 0x1200#16), .engine]
        (inFlight [0, 1, 2] 5 0x21301#64)).agenda =
      [Transaction.write 0x1200#16 9#64, Transaction.read 0x1200#16].map Event.host ++ .engine :: rest :=
  ⟨rfl, [], rfl⟩

/-- CMD, ARG, and the window's two ends (R58); the clauses on BERR are met by the states of the next theorem. -/
theorem witness_BusyWritesOnlySetBerr :
    (inFlight [1] 5 0x21301#64).status.busy = true ∧
    (∀ off : BitVec 16, ∃ rest, (facing [.host (.write off 7#64)] (inFlight [1] 5 0x21301#64)).agenda =
      .host (.write off 7#64) :: rest) ∧
    (∀ off ∈ [0x0008#16, 0x0018#16, 0x1000#16, 0x2FF8#16], off = 0x0008#16 ∨ off = 0x0018#16 ∨
      ∃ v w : Nat, v < 16 ∧ w < 64 ∧ off = BitVec.ofNat 16 (0x1000 + 0x200 * v + 8 * w)) := by
  refine ⟨rfl, fun off => ⟨_, rfl⟩, ?_⟩
  simp only [List.mem_cons, List.not_mem_nil, or_false]
  rintro off (rfl | rfl | rfl | rfl)
  · exact .inl rfl
  · exact .inr (.inl rfl)
  · exact .inr (.inr ⟨0, 0, by decide, by decide, by decide⟩)
  · exact .inr (.inr ⟨15, 63, by decide, by decide, by decide⟩)

/-- BERR cleared by an acceptance and by reset; BERR set by an ignored write. -/
theorem witness_BerrIsClearedOnlyByAcceptanceOrReset :
    (idle [] 0).setBerr.status.berr = true ∧
    reaches (fun t => !t.status.berr) (step (facing [.host (.write 0x0008#16 0x120#64)] (idle [] 0).setBerr)) = true ∧
    reaches (fun t => !t.status.berr) (step (facing [.reset none] (idle [] 0).setBerr)) = true ∧
    (inFlight [] 0 0x120#64).status.berr = false ∧
    reaches (fun t => t.status.berr) (step (facing [.host (.write 0x0018#16 1#64)] (inFlight [] 0 0x120#64))) = true := by
  decide +kernel

/-- Misaligned (the lowest and the highest), ID, STATUS, and both ends of both reserved ranges (R52, R57). -/
theorem witness_MisalignedAndReservedAccessesDoNothing :
    (∀ n ∈ [0x0001, 0xFFFF, 0x0000, 0x0010, 0x0020, 0x0FF8, 0x3000, 0xFFF8],
      (BitVec.ofNat 16 n).toNat = n ∧ (n % 8 ≠ 0 ∨ n = 0x0000 ∨ n = 0x0010 ∨ (0x0020 ≤ n ∧ n ≤ 0x0FF8) ∨
        (0x3000 ≤ n ∧ n ≤ 0xFFF8))) ∧
    (∀ off : BitVec 16, (∃ rest, (facing [.host (.write off 7#64)] (idle [1] 5)).agenda = .host (.write off 7#64) :: rest) ∧
      ∃ rest, (facing [.host (.read off)] (idle [1] 5)).agenda = .host (.read off) :: rest) :=
  ⟨by decide +kernel, fun _ => ⟨⟨_, rfl⟩, ⟨_, rfl⟩⟩⟩

/-- ID, CMD, STATUS, ARG and the window's two ends, idle; and a consistent busy state (R56). -/
theorem witness_ReadsAreExactAndSideEffectFree :
    (∀ off ∈ [0x0000#16, 0x0008#16, 0x0010#16, 0x0018#16, 0x1000#16, 0x2FF8#16],
      ∃ rest, (facing [.host (.read off)] (idle [1] 5)).agenda = .host (.read off) :: rest) ∧
    0x1000#16 = BitVec.ofNat 16 (0x1000 + 0x200 * (0 : VReg).val + 8 * 0) ∧
    0x2FF8#16 = BitVec.ofNat 16 (0x1000 + 0x200 * (15 : VReg).val + 8 * 63) ∧ (idle [1] 5).status.busy = false ∧
    (facing [.host (.read 0x0010#16)] (inFlight [1] 5 0x120#64)).Consistent ∧
    (facing [.host (.read 0x0010#16)] (inFlight [1] 5 0x120#64)).status.busy = true :=
  ⟨fun _ _ => ⟨_, rfl⟩, by decide, by decide, rfl, (witness_consistent_busy _ _ _ _).1, rfl⟩

theorem witness_BusyWindowReadReturnsSomeValueOnly :
    (inFlight [1] 5 0x120#64).status.busy = true ∧
    ∃ rest, (facing [.host (.read 0x2FF8#16)] (inFlight [1] 5 0x120#64)).agenda =
      .host (.read (BitVec.ofNat 16 (0x1000 + 0x200 * (15 : VReg).val + 8 * 63))) :: rest := ⟨rfl, _, rfl⟩

/-- The window's two ends; the word written and another one. -/
theorem witness_WindowAccessesMoveExactlyOneWord :
    (0x1000 % 8 = 0 ∧ 0x1000 ≤ 0x1000 ∧ 0x1000 ≤ 0x2FF8) ∧ (0x2FF8 % 8 = 0 ∧ 0x1000 ≤ 0x2FF8 ∧ 0x2FF8 ≤ 0x2FF8) ∧
    (idle [1] 5).status.busy = false ∧
    (∃ rest, (facing [.host (.read 0x2FF8#16)] (idle [1] 5)).agenda =
      .host (.read (BitVec.ofNat 16 (0x1000 + 0x200 * (15 : VReg).val + 8 * 63))) :: rest) ∧
    (∃ rest, (facing [.host (.write 0x1000#16 7#64)] (idle [1] 5)).agenda =
      .host (.write (BitVec.ofNat 16 (0x1000 + 0x200 * (0 : VReg).val + 8 * 0)) 7#64) :: rest) ∧
    (∃ rest, (facing [.host (.write 0x2FF8#16 7#64)] (idle [1] 5)).agenda =
      .host (.write (BitVec.ofNat 16 (0x1000 + 0x200 * (15 : VReg).val + 8 * 63)) 7#64) :: rest) :=
  ⟨by decide, by decide, rfl, ⟨_, rfl⟩, ⟨_, rfl⟩, ⟨_, rfl⟩⟩

theorem witness_ArgChangesOnlyByHostWriteOrReset :
    (idle [1] 5).status.busy = false ∧
    reaches (fun t => t.arg != (idle [1] 5).arg) (step (facing [.host (.write 0x0018#16 7#64)] (idle [1] 5))) = true ∧
    reaches (fun t => t.arg != (idle [1] 5).arg) (step (facing [.reset none] (idle [1] 5))) = true := by decide +kernel

/-- ARG and the window's two ends, each written twice. -/
theorem witness_ReadsHaveNoSideEffectAndWritesAreIdempotent :
    (∃ rest, (facing [.host (.read 0x2FF8#16)] (inFlight [1] 5 0x120#64)).agenda = .host (.read 0x2FF8#16) :: rest) ∧
    (idle [1] 5).status.busy = false ∧
    (∀ off : BitVec 16, ∃ rest, (facing [.host (.write off 7#64), .host (.write off 7#64)] (idle [1] 5)).agenda =
      .host (.write off 7#64) :: .host (.write off 7#64) :: rest) ∧
    (∃ v w : Nat, v < 16 ∧ w < 64 ∧ 0x2FF8#16 = BitVec.ofNat 16 (0x1000 + 0x200 * v + 8 * w)) :=
  ⟨⟨_, rfl⟩, rfl, fun _ => ⟨_, rfl⟩, 15, 63, by decide, by decide, by decide⟩

/-- R55 in numbers: the last byte of a value, seen through its window. -/
theorem witness_PlatformBytesAreLittleEndian :
    (idle [0xAB * pow2 4088] 0).status.busy = false ∧
    State.platformByte (BitVec.ofNat 16 (0x1000 + 0x200 * (0 : VReg).val + 8 * (511 / 8))) (Fin.ofNat 8 511)
      (idle [0xAB * pow2 4088] 0) = 0xAB#8 := by decide +kernel

/-- The hypotheses of the statements about ADD, SUB, MUL, AND, OR, XOR, NOT, SHL, SHR, CMP, TST and LDI: a command in flight with
any command word, and for each mask the word with every operand bit set. -/
theorem witness_command_in_flight (vs : List Value) (arg c : Word) :
    ∃ p, (inFlight vs arg c).pend = some p ∧ p.cmd = c ∧ p.arg = arg ∧ p.regs = (idle vs arg).regs := ⟨_, rfl, rfl, rfl, rfl⟩

theorem witness_words_with_every_operand_bit_set :
    (∀ op ∈ [0x01, 0x02, 0x03, 0x04, 0x05, 0x10, 0x11, 0x12],
      BitVec.ofNat 64 (0xFFF00 + op) &&& 0xFFFFFFFFFFF000FF#64 = BitVec.ofNat 64 op) ∧
    0xFF13#64 &&& 0xFFFFFFFFFFFF00FF#64 = 0x13#64 ∧ 0xFFFFFFFF0000FF14#64 &&& 0x00000000FFFF00FF#64 = 0x14#64 ∧
    0xFFFFFFFF0000FF15#64 &&& 0x00000000FFFF00FF#64 = 0x15#64 ∧ 0xFF018#64 &&& 0xFFFFFFFFFFF00FFF#64 = 0x18#64 ∧
    0xF019#64 &&& 0xFFFFFFFFFFFF0FFF#64 = 0x19#64 ∧ 0xF20#64 &&& 0xFFFFFFFFFFFFF0FF#64 = 0x20#64 ∧
    0xFFFF06#64 &&& 0xFFFFFFFFFF0000FF#64 = 0x06#64 ∧ 0xFFFFFFFF0000F007#64 &&& 0x00000000FFFF0FFF#64 = 0x07#64 := by
  decide +kernel

/-- DIV and MOD with the least nonzero divisor and with the zero divisor. -/
theorem witness_division_operands :
    (∃ p, (inFlight [0, 17, 1] 0 0x21304#64).pend = some p ∧ p.regs[(2 : VReg)].toNat ≠ 0) ∧
    (∃ p, (inFlight [0, 17, 0] 0 0x21304#64).pend = some p ∧ p.regs[(2 : VReg)].toNat = 0) :=
  ⟨⟨_, rfl, by decide +kernel⟩, ⟨_, rfl, by decide +kernel⟩⟩

/-- MODEXP with the least nonzero modulus and with the zero modulus. -/
theorem witness_ModexpRunsSquareAndMultiply :
    (∃ p, (inFlight [4, 13, 1] 0 0x210306#64).pend = some p ∧ engineNonzero p.regs[(2 : VReg)] = true) ∧
    (∃ p, (inFlight [4, 13, 0] 0 0x210306#64).pend = some p ∧ engineNonzero p.regs[(2 : VReg)] = false) :=
  ⟨⟨_, rfl, by decide +kernel⟩, ⟨_, rfl, by decide +kernel⟩⟩

/-- The largest legal round count and the least illegal one. -/
theorem witness_IsprimeWritesOnlyPrime : (∃ p, (inFlight [0, 97] 0 0x500001007#64).pend = some p) ∧ 5 ≤ 5 ∧ 5 < 6 :=
  ⟨⟨_, rfl⟩, by decide, by decide⟩

/-- A command with a destination and an untouched register, one without, and an error completion. -/
theorem witness_CommandsWriteOnlyTheirDestination :
    reaches (fun _ => true) (exec (.add 3 1 2) (inFlight [0, 1, 2] 5 0x21301#64)) = true ∧
    destination (.add 3 1 2) ≠ some 15 ∧
    reaches (fun _ => true) (exec (.cmp 1 2) (inFlight [0, 1, 2] 5 0x21018#64)) = true ∧ destination (.cmp 1 2) ≠ some 0 ∧
    reaches (fun t => t.status.err) (exec (.isprime 1 6) (inFlight [0, 1] 5 0x600001007#64)) = true := by decide +kernel

/-- Each kind of command R26 tells apart, an error completion, and an acceptance. -/
theorem witness_FlagsAreWrittenOnlyByTheirCommand :
    reaches (fun _ => true) (exec (.cmp 1 2) (inFlight [0, 1, 2] 5 0x21018#64)) = true ∧
    reaches (fun _ => true) (exec (.tst 1) (inFlight [0, 1, 2] 5 0x1019#64)) = true ∧
    (∀ rs1 rs2, Instr.tst 1 ≠ .cmp rs1 rs2) ∧
    (∀ rs1, Instr.cmp 1 2 ≠ .tst rs1) ∧ (∀ rs1 rounds, Instr.cmp 1 2 ≠ .isprime rs1 rounds) ∧
    reaches (fun t => t.status.err) (exec (.isprime 1 6) (inFlight [0, 1] 5 0x600001007#64)) = true ∧
    (idle [] 0).status.busy = false ∧
    reaches (fun _ => true) (step (facing [.host (.write 0x0008#16 0#64)] (idle [] 0))) = true ∧
    reaches (fun t => !t.status.err) (exec (.isprime 1 5) { inFlight [0, 1] 5 0x500001007#64 with
      status := { Status.reset with busy := true, gt := true, prime := true } }) = true :=
  ⟨by decide +kernel, by decide +kernel, by simp, by simp, by simp, by decide +kernel, rfl, by decide +kernel,
    by decide +kernel⟩

/-- Each flag changed by a step: LT, NZ and PRIME by their commands, with no reset to come. -/
theorem witness_flags_change_by_their_command :
    reaches (fun t => t.status.lt) (step (inFlight [0, 1, 2] 5 0x21018#64)) = true ∧
    (inFlight [0, 1, 2] 5 0x21018#64).status.lt = false ∧
    reaches (fun t => t.status.nz) (step (inFlight [0, 1, 2] 5 0x1019#64)) = true ∧
    (inFlight [0, 1, 2] 5 0x1019#64).status.nz = false ∧
    reaches (fun t => t.status.prime) (step (inFlight [0, 3] 5 0x500001007#64)) = true ∧
    (inFlight [0, 3] 5 0x500001007#64).status.prime = false ∧
    (∀ c presented rest, (inFlight [0, 3] 5 c).agenda ≠ .reset presented :: rest) :=
  ⟨by decide +kernel, rfl, by decide +kernel, rfl, by decide +kernel, rfl,
    fun _ _ _ => by simp [inFlight, idle, State.accept, State.reset]⟩

theorem witness_CompletionFrame : reaches (fun _ => true) (exec (.ldi 1) (inFlight [] 17 0x120#64)) = true := by
  decide +kernel

/-- Both turns of the engine end a command with an error. -/
theorem witness_ErrorCompletionsChangeOnlyFourStatusFields :
    (inFlight [1] 5 0x16#64).status.busy = true ∧ (inFlight [1] 5 0x16#64).agenda = [] ∧
    reaches (fun t => t.status.err) (step (inFlight [1] 5 0x16#64)) = true ∧
    (∃ rest, (facing [.engine] (inFlight [1] 5 0x16#64)).agenda = .engine :: rest) ∧
    reaches (fun t => t.status.err) (step (facing [.engine] (inFlight [1] 5 0x16#64))) = true :=
  ⟨rfl, rfl, by decide +kernel, ⟨_, rfl⟩, by decide +kernel⟩

/-- One state in flight for each error code and one for none. -/
theorem witness_ErrorCodesNameTheirCauses :
    (∀ c ∈ [0x16#64, 0x600001007#64, 0x21304#64, 0x21405#64, 0x210306#64, 0x120#64],
      (inFlight [0, 1, 0] 5 c).status.busy = true ∧ (inFlight [0, 1, 0] 5 c).agenda = [] ∧
      (∃ p, (inFlight [0, 1, 0] 5 c).pend = some p)) ∧
    (statusAfter (step (inFlight [0, 1, 0] 5 0x16#64)) = some 0x36#64 ∧
      statusAfter (step (inFlight [0, 1, 0] 5 0x600001007#64)) = some 0x46#64 ∧
      statusAfter (step (inFlight [0, 1, 0] 5 0x21304#64)) = some 0x16#64 ∧
      statusAfter (step (inFlight [0, 1, 0] 5 0x21405#64)) = some 0x16#64 ∧
      statusAfter (step (inFlight [0, 1, 0] 5 0x210306#64)) = some 0x26#64 ∧
      statusAfter (step (inFlight [0, 1, 0] 5 0x120#64)) = some 0x02#64) :=
  ⟨fun _ _ => ⟨rfl, rfl, ⟨_, rfl⟩⟩, by decide +kernel⟩

/-- CMDR changed by an acceptance and by reset. -/
theorem witness_CmdrChangesOnlyByAcceptanceOrReset :
    reaches (fun t => t.cmdr != (idle [] 0).cmdr) (step (facing [.host (.write 0x0008#16 0x120#64)] (idle [] 0))) = true ∧
    reaches (fun t => t.cmdr != (inFlight [] 0 0x120#64).cmdr) (step (facing [.reset none] (inFlight [] 0 0x120#64))) =
      true := by decide +kernel

/-- An idle machine after an error completion, facing an acceptance, facing reset, and facing neither. -/
theorem witness_ErrorIsClearedOnlyByAcceptanceOrReset :
    (∀ es, (facing es ((inFlight [] 0 0#64).finishError .illegalCmd)).Consistent) ∧
    ((inFlight [] 0 0#64).finishError .illegalCmd).status.err = true ∧
    reaches (fun t => !t.status.err)
      (step (facing [.host (.write 0x0008#16 0x120#64)] ((inFlight [] 0 0#64).finishError .illegalCmd))) = true ∧
    reaches (fun t => !t.status.err) (step (facing [.reset none] ((inFlight [] 0 0#64).finishError .illegalCmd))) = true ∧
    reaches (fun t => t.status.err) (step (facing [.engine] ((inFlight [] 0 0#64).finishError .illegalCmd))) = true := by
  refine ⟨fun es => ⟨rfl, ?_, ?_, ?_, ?_, ?_⟩, rfl, by decide +kernel, by decide +kernel, by decide +kernel⟩ <;>
    simp [facing, inFlight, idle, State.accept, State.finishError, State.reset, Status.reset]

/-- V1 changed by a window write, by a command and by reset. -/
theorem witness_ValueRegistersChangeOnlyByThreeEvents :
    reaches (fun t => t.regs[(1 : VReg)] != 1) (step (facing [.host (.write 0x1200#16 7#64)] (idle [0, 1] 5))) = true ∧
    reaches (fun t => t.regs[(1 : VReg)] != 1) (step (inFlight [0, 1] 5 0x120#64)) = true ∧
    reaches (fun t => t.regs[(1 : VReg)] != 1) (step (facing [.reset none] (idle [0, 1] 5))) = true ∧
    (idle [0, 1] 5).regs[(1 : VReg)] = 1 := by decide +kernel

theorem witness_QuotientAndRemainderRecombine : (1#4096).toNat ≠ 0 ∧ maxValue.toNat ≠ 0 := by decide +kernel

/-- Counts on both sides of the width (the third vector is the law itself: BIT-9). -/
theorem witness_ShiftRoundTripsMaskTheValue :
    (4095 : Nat) < 4096 ∧ (4096 : Nat) ≤ 4096 ∧
    engineShr (engineShl (0xF * pow2 4092 + 0x1234) 4) 4 = 0x1234 ∧
    engineShl (engineShr (0xF * pow2 4092 + 0x1234) 4) 4 = 0xF * pow2 4092 + 0x1230 := by decide +kernel

/-- The largest modulus of the exact range, with both ways to meet the last hypothesis at modulus 1 and exponent 0. -/
theorem witness_ModexpIsExactUpToHalfWidth :
    (pow2 2048).toNat ≠ 0 ∧ (pow2 2048).toNat ≤ 2 ^ 2048 ∧ ((0#4096).toNat ≠ 0 ∨ 1 < (pow2 2048).toNat) ∧
    (1#4096).toNat ≠ 0 ∧ (1#4096).toNat ≤ 2 ^ 2048 ∧ ((1#4096).toNat ≠ 0 ∨ 1 < (1#4096).toNat) := by decide +kernel

theorem witness_DecompositionIsExact :
    (5#4096).toNat % 2 = 1 ∧ 5 ≤ (5#4096).toNat ∧ maxValue.toNat % 2 = 1 ∧ 5 ≤ maxValue.toNat := by decide +kernel

theorem witness_WitnessGuardAppliesOnlyToItself :
    (11#4096).toNat % 2 = 1 ∧ 5 ≤ (11#4096).toNat ∧ 11 ∈ [2, 3, 5, 7, 11] ∧ 2 ∈ [2, 3, 5, 7, 11] ∧ 5 ≤ 5 := by decide +kernel

/-- Each of the first three answers, and 97 = 3 · 2^5 + 1 with the first and the last witness. -/
theorem witness_IsprimeRunsMillerRabin :
    (1#4096).toNat ≤ 1 ∧ (3#4096).toNat = 3 ∧ (2 < (4#4096).toNat ∧ (4#4096).toNat % 2 = 0) ∧
    5 ≤ (97#4096).toNat ∧ (97#4096).toNat % 2 = 1 ∧ (97#4096).toNat - 1 = (3#4096).toNat * 2 ^ 5 ∧ (3#4096).toNat % 2 = 1 ∧
    [2, 3, 5, 7, 11][0]? = some 2 ∧ [2, 3, 5, 7, 11][4]? = some 11 := by decide +kernel

theorem witness_PrimesAreNeverReportedComposite :
    (97#4096).toNat.Prime ∧ (97#4096).toNat ≤ 2 ^ 2048 ∧ 5 ≤ 5 := by
  have h : (97#4096).toNat = 97 := by decide +kernel
  rw [h]
  exact ⟨by norm_num, by norm_num, le_refl _⟩

end Sys2Proof.Tests
end

/-! ## Proofs about the state (spec/10_state.md)

Two inversion lemmas carry this part. `exec_ending`: a command's completion is one of five endings, which the snapshot alone
determines. `stepEffect_of_step`: a step has one of ten effects. Every statement about what changes a piece of state is a case
split on these two. -/

namespace Sys2Proof.Machine

/-! ### How a command ends -/

/-- How a completion ends: with an error (R203), or with success and the one thing it wrote (R211). -/
inductive Ending where
  | error (code : ErrCode)
  | register (rd : VReg) (v : Value)
  | order (o : Ordering)
  | nz (b : Bool)
  | prime (b : Bool)

/-- The state in which the ending leaves the machine. -/
def Ending.finish : Ending → State → State
  | .error code, s => s.finishError code
  | .register rd v, s => s.finishWrite rd v
  | .order o, s => (s.setOrder o).finishOk
  | .nz b, s => (s.setNz b).finishOk
  | .prime b, s => (s.setPrime b).finishOk

/-- The error a command's operand check can raise (R205, R206, R208). -/
def raises : Instr → Option ErrCode
  | .div _ _ _ => some .divByZero
  | .mod _ _ _ => some .divByZero
  | .modexp _ _ _ _ => some .zeroModulus
  | .isprime _ _ => some .badRounds
  | _ => none

/-- The endings a command can have: the error it raises, a write of its destination, or the flags it owns (R23, R26). -/
def Ending.Of (i : Instr) : Ending → Prop
  | .error code => raises i = some code
  | .register rd _ => destination i = some rd
  | .order _ => ∃ rs1 rs2, i = .cmp rs1 rs2
  | .nz _ => ∃ rs1, i = .tst rs1
  | .prime _ => ∃ rs1 rounds, i = .isprime rs1 rounds

theorem raises_ne_some_none (i : Instr) : raises i ≠ some .none := by
  cases i <;> simp [raises]

/-- A command that always writes its destination, with a value computed from the snapshot. -/
theorem ending_of_finishWrite {i : Instr} {rd : VReg} (f : Pending → Value) (hd : destination i = some rd)
    (hf : ∀ s, exec i s = .next (s.finishWrite rd (f s.snapshot))) (p : Pending) :
    ∃ e : Ending, e.Of i ∧ ∀ s : State, s.snapshot = p → exec i s = .next (e.finish s) :=
  ⟨.register rd (f p), hd, fun s hs => by rw [hf, hs, Ending.finish]⟩

/-- A command whose operand check either raises an error or lets it write its destination. -/
theorem ending_of_check {i : Instr} {rd : VReg} {code : ErrCode} (f : Pending → Value) (check : Pending → Bool)
    (hd : destination i = some rd) (hr : raises i = some code)
    (hf : ∀ s, exec i s =
      if check s.snapshot then .next (s.finishWrite rd (f s.snapshot)) else .next (s.finishError code))
    (p : Pending) : ∃ e : Ending, e.Of i ∧ ∀ s : State, s.snapshot = p → exec i s = .next (e.finish s) := by
  cases hc : check p with
  | true => exact ⟨.register rd (f p), hd, fun s hs => by rw [hf, hs, hc, if_pos rfl, Ending.finish]⟩
  | false => exact ⟨.error code, hr, fun s hs => by rw [hf, hs, hc, if_neg Bool.false_ne_true, Ending.finish]⟩

/-- The snapshot alone determines how a command ends (R93, R201): in particular no command reads a flag (R26). -/
theorem exec_ending (i : Instr) (p : Pending) :
    ∃ e : Ending, e.Of i ∧ ∀ s : State, s.snapshot = p → exec i s = .next (e.finish s) := by
  cases i with
  | add rd rs1 rs2 => exact ending_of_finishWrite (fun q => add4096 q.regs[rs1] q.regs[rs2]) rfl (fun _ => rfl) p
  | sub rd rs1 rs2 => exact ending_of_finishWrite (fun q => sub4096 q.regs[rs1] q.regs[rs2]) rfl (fun _ => rfl) p
  | mul rd rs1 rs2 => exact ending_of_finishWrite (fun q => mul4096 q.regs[rs1] q.regs[rs2]) rfl (fun _ => rfl) p
  | div rd rs1 rs2 =>
    exact ending_of_check (fun q => (divmod4096 q.regs[rs1] q.regs[rs2]).1) (fun q => nonzero q.regs[rs2]) rfl rfl
      (fun _ => rfl) p
  | mod rd rs1 rs2 =>
    exact ending_of_check (fun q => (divmod4096 q.regs[rs1] q.regs[rs2]).2) (fun q => nonzero q.regs[rs2]) rfl rfl
      (fun _ => rfl) p
  | modexp rd rs1 rs2 rs3 =>
    exact ending_of_check (fun q => modexp4096 q.regs[rs1] q.regs[rs2] q.regs[rs3]) (fun q => nonzero q.regs[rs3]) rfl rfl
      (fun _ => rfl) p
  | isprime rs1 rounds =>
    by_cases hr : Config.maxRounds < rounds
    · exact ⟨.error .badRounds, rfl, fun s _ => if_pos hr⟩
    · exact ⟨.prime (isprime4096 p.regs[rs1] rounds), ⟨rs1, rounds, rfl⟩,
        fun s hs => by subst hs; exact if_neg hr⟩
  | and rd rs1 rs2 => exact ending_of_finishWrite (fun q => q.regs[rs1] &&& q.regs[rs2]) rfl (fun _ => rfl) p
  | or rd rs1 rs2 => exact ending_of_finishWrite (fun q => q.regs[rs1] ||| q.regs[rs2]) rfl (fun _ => rfl) p
  | xor rd rs1 rs2 => exact ending_of_finishWrite (fun q => q.regs[rs1] ^^^ q.regs[rs2]) rfl (fun _ => rfl) p
  | not rd rs1 => exact ending_of_finishWrite (fun q => ~~~ q.regs[rs1]) rfl (fun _ => rfl) p
  | shl rd rs1 k => exact ending_of_finishWrite (fun q => shl4096 q.regs[rs1] k) rfl (fun _ => rfl) p
  | shr rd rs1 k => exact ending_of_finishWrite (fun q => shr4096 q.regs[rs1] k) rfl (fun _ => rfl) p
  | cmp rs1 rs2 =>
    exact ⟨.order (ucmp p.regs[rs1] p.regs[rs2]), ⟨rs1, rs2, rfl⟩, fun s hs => by subst hs; rfl⟩
  | tst rs1 => exact ⟨.nz (nonzero p.regs[rs1]), ⟨rs1, rfl⟩, fun s hs => by subst hs; rfl⟩
  | ldi rd => exact ending_of_finishWrite (fun q => zext4096 q.arg) rfl (fun _ => rfl) p

/-- `exec_ending` for one completion that answered `t`. -/
theorem ending_of_exec {i : Instr} {s t : State} (h : exec i s = .next t) : ∃ e : Ending, e.Of i ∧ t = e.finish s := by
  obtain ⟨e, he, hexec⟩ := exec_ending i s.snapshot
  rw [hexec s rfl] at h
  cases h
  exact ⟨e, he, rfl⟩

/-- CMP has no error and no destination, so it ends by writing the order flags (R160). -/
theorem Ending.Of.eq_order {e : Ending} {rs1 rs2 : VReg} (he : e.Of (.cmp rs1 rs2)) : ∃ o, e = .order o := by
  cases e <;> simp [Ending.Of, raises, destination] at he ⊢

/-- TST has no error and no destination, so it ends by writing NZ (R161). -/
theorem Ending.Of.eq_nz {e : Ending} {rs1 : VReg} (he : e.Of (.tst rs1)) : ∃ b, e = .nz b := by
  cases e <;> simp [Ending.Of, raises, destination] at he ⊢

/-- ISPRIME ends by writing PRIME unless it ends in an error (R176). -/
theorem Ending.Of.eq_prime_or_error {e : Ending} {rs1 : VReg} {rounds : Nat} (he : e.Of (.isprime rs1 rounds)) :
    (∃ b, e = .prime b) ∨ ∃ code, e = .error code := by
  cases e <;> simp [Ending.Of, destination] at he ⊢

/-! ### What every ending leaves -/

namespace Ending

@[simp] theorem finish_arg (e : Ending) (s : State) : (e.finish s).arg = s.arg := by cases e <;> rfl
@[simp] theorem finish_cmdr (e : Ending) (s : State) : (e.finish s).cmdr = s.cmdr := by cases e <;> rfl
@[simp] theorem finish_pend (e : Ending) (s : State) : (e.finish s).pend = none := by cases e <;> rfl
@[simp] theorem finish_busy (e : Ending) (s : State) : (e.finish s).status.busy = false := by cases e <;> rfl
@[simp] theorem finish_done (e : Ending) (s : State) : (e.finish s).status.done = true := by cases e <;> rfl

theorem finish_err_iff (e : Ending) (s : State) : (e.finish s).status.err = true ↔ ∃ code, e = .error code := by
  cases e <;> simp [finish]

/-- ERR and ERRCODE agree after a completion (R203, R204, R211). -/
theorem finish_err_iff_errcode {i : Instr} {e : Ending} (he : e.Of i) (s : State) :
    (e.finish s).status.err = true ↔ (e.finish s).status.errcode ≠ .none := by
  cases e with
  | error code =>
    have hcode : code ≠ .none := by
      rintro rfl
      exact raises_ne_some_none i he
    simp [finish, hcode]
  | register | order | nz | prime => simp [finish]

/-- A completion writes no register but the destination (R23). -/
theorem finish_regs_of_ne {i : Instr} {e : Ending} {r : VReg} (he : e.Of i) (hr : destination i ≠ some r) (s : State) :
    (e.finish s).regs[r] = s.regs[r] := by
  cases e with
  | register rd v =>
    have hne : r ≠ rd := by
      rintro rfl
      exact hr he
    exact s.writeReg_other rd r v hne
  | error | order | nz | prime => rfl

/-- The registers after a completion depend on no other field of the state before it. -/
theorem finish_regs_congr (e : Ending) {s s' : State} (h : s'.regs = s.regs) : (e.finish s').regs = (e.finish s).regs := by
  cases e <;> simp [finish, h]

theorem finish_err_congr (e : Ending) (s s' : State) : (e.finish s').status.err = (e.finish s).status.err := by
  cases e <;> rfl

theorem finish_errcode_congr (e : Ending) (s s' : State) :
    (e.finish s').status.errcode = (e.finish s).status.errcode := by
  cases e <;> rfl

/-- LT, EQ and GT are written by the order ending alone (R26). -/
theorem finish_order_flags {e : Ending} (he : ∀ o, e ≠ .order o) (s : State) :
    (e.finish s).status.lt = s.status.lt ∧ (e.finish s).status.eq = s.status.eq ∧
      (e.finish s).status.gt = s.status.gt := by
  cases e with
  | order o => exact absurd rfl (he o)
  | error | register | nz | prime => exact ⟨rfl, rfl, rfl⟩

/-- NZ is written by its own ending alone (R26). -/
theorem finish_nz_flag {e : Ending} (he : ∀ b, e ≠ .nz b) (s : State) : (e.finish s).status.nz = s.status.nz := by
  cases e with
  | nz b => exact absurd rfl (he b)
  | error | register | order | prime => rfl

/-- PRIME is written by its own ending alone (R26). -/
theorem finish_prime_flag {e : Ending} (he : ∀ b, e ≠ .prime b) (s : State) :
    (e.finish s).status.prime = s.status.prime := by
  cases e with
  | prime b => exact absurd rfl (he b)
  | error | register | order | nz => rfl

end Ending

/-! ### What a step does -/

/-- The effects a step can have: the engine idles or completes, the host reads or writes with one of five outcomes, or `rst`
resets. -/
inductive StepEffect (s : State) : State → Prop
  | idle (turn : s.agenda = [] ∨ ∃ rest, s.agenda = .engine :: rest) (busy : s.status.busy = false) :
      StepEffect s { s with agenda := s.agenda.tail }
  | illegal (turn : s.agenda = [] ∨ ∃ rest, s.agenda = .engine :: rest) (busy : s.status.busy = true)
      (reason : IllegalCommand) (undecoded : decode s.cmdr = .error reason) :
      StepEffect s (State.finishError .illegalCmd { s with agenda := s.agenda.tail })
  | completed (turn : s.agenda = [] ∨ ∃ rest, s.agenda = .engine :: rest) (busy : s.status.busy = true)
      (i : Instr) (decoded : decode s.cmdr = .ok i) (e : Ending) (ends : e.Of i) :
      StepEffect s (e.finish { s with agenda := s.agenda.tail })
  | read (off : BitVec 16) (rest : List Event) (next : s.agenda = .host (.read off) :: rest) :
      StepEffect s (State.portRead off { s with agenda := rest })
  | writeWithoutEffect (off : BitVec 16) (d : Word) (rest : List Event) (next : s.agenda = .host (.write off d) :: rest) :
      StepEffect s { s with agenda := rest }
  | writeIgnored (off : BitVec 16) (d : Word) (rest : List Event) (next : s.agenda = .host (.write off d) :: rest)
      (busy : s.status.busy = true) :
      StepEffect s (State.setBerr { s with agenda := rest })
  | accepted (c : Word) (rest : List Event) (next : s.agenda = .host (.write 0x0008#16 c) :: rest)
      (busy : s.status.busy = false) :
      StepEffect s (State.accept c { s with agenda := rest })
  | argWritten (d : Word) (rest : List Event) (next : s.agenda = .host (.write 0x0018#16 d) :: rest)
      (busy : s.status.busy = false) :
      StepEffect s (State.writeArg d { s with agenda := rest })
  | wordWritten (v : VReg) (w : Fin 64) (d : Word) (rest : List Event)
      (next : s.agenda = .host (.write (vwinOffset v w) d) :: rest) (busy : s.status.busy = false) :
      StepEffect s (State.writeReg v (setWord s.regs[v] w.val d) { s with agenda := rest })
  | reset (presented : Option Transaction) (rest : List Event) (next : s.agenda = .reset presented :: rest) :
      StepEffect s (State.hardReset presented { s with agenda := rest })

/-- The engine's turn with a command in flight: an illegal word, or the decoded command's ending (R202, R207). -/
theorem stepEffect_of_complete {s t : State} (turn : s.agenda = [] ∨ ∃ rest, s.agenda = .engine :: rest)
    (busy : s.status.busy = true) (h : complete { s with agenda := s.agenda.tail } = .next t) : StepEffect s t := by
  simp only [complete] at h
  split at h
  next reason hd =>
    cases h
    exact .illegal turn busy reason hd
  next i hd =>
    obtain ⟨e, he, rfl⟩ := ending_of_exec h
    exact .completed turn busy i hd e he

/-- A host transaction: a read, or a write with one of the outcomes of `portWrite_cases`. -/
theorem stepEffect_of_transact {s : State} {tr : Transaction} {rest : List Event} (next : s.agenda = .host tr :: rest) :
    StepEffect s (State.transact tr { s with agenda := rest }) := by
  cases tr with
  | read off => exact .read off rest next
  | write off d =>
    simp only [State.transact]
    obtain ⟨-, hw⟩ | ⟨hb, hw⟩ | ⟨hb, rfl, hw⟩ | ⟨hb, rfl, hw⟩ | ⟨hb, -, v, w, rfl, hw⟩ :=
      portWrite_cases { s with agenda := rest } off d
    · rw [hw]; exact .writeWithoutEffect off d rest next
    · rw [hw]; exact .writeIgnored off d rest next hb
    · rw [hw]; exact .accepted d rest next hb
    · rw [hw]; exact .argWritten d rest next hb
    · rw [hw]; exact .wordWritten v w d rest next hb

/-- Every step has one of the effects of `StepEffect`. -/
theorem stepEffect_of_step {s t : State} (h : step s = .next t) : StepEffect s t := by
  obtain ⟨turn, hb, hs⟩ | ⟨turn, hb, hs⟩ | ⟨tr, rest, next, hs⟩ | ⟨presented, rest, next, hs⟩ := step_cases s <;>
    rw [hs] at h
  · cases h; exact .idle turn hb
  · exact stepEffect_of_complete turn hb h
  · cases h; exact stepEffect_of_transact next
  · cases h; exact .reset presented rest next

/-- With a host transaction next, the step is that transaction (R51). -/
theorem step_host {s : State} {tr : Transaction} {rest : List Event} (next : s.agenda = .host tr :: rest) :
    step s = .next (State.transact tr { s with agenda := rest }) := by
  simp only [step, nextEvent, next]

/-- A write at the ARG offset while BUSY = 0 (R24). -/
theorem portWrite_arg_of_idle {s : State} (d : Word) (busy : s.status.busy = false) :
    s.portWrite 0x0018#16 d = s.writeArg d := by
  simp [State.portWrite, (portTarget_eq_arg _).2 rfl, busy]

/-- A write at the CMD offset while BUSY = 0 is an acceptance (R201). -/
theorem portWrite_cmd_of_idle {s : State} (c : Word) (busy : s.status.busy = false) :
    s.portWrite 0x0008#16 c = s.accept c := by
  simp [State.portWrite, (portTarget_eq_cmd _).2 rfl, busy]

/-! ### The invariant -/

namespace State.Consistent

/-- `Consistent` speaks of the hardware only: the model's record of the world outside may differ. -/
theorem of_hardware_eq {s t : State} (h : s.Consistent) (hregs : t.regs = s.regs) (harg : t.arg = s.arg)
    (hcmdr : t.cmdr = s.cmdr) (hstatus : t.status = s.status) (hpend : t.pend = s.pend) : t.Consistent := by
  obtain ⟨hp, hbd, hed, hec, ho, hu⟩ := h
  constructor <;> simp only [hregs, harg, hcmdr, hstatus, hpend] <;> assumption

theorem withAgenda {s : State} (h : s.Consistent) (l : List Event) : State.Consistent { s with agenda := l } :=
  h.of_hardware_eq rfl rfl rfl rfl rfl

/-- While BUSY = 0 the registers and ARG may change: PEND is empty and holds no copy of them. -/
theorem of_operands_changed_idle {s t : State} (h : s.Consistent) (busy : s.status.busy = false)
    (hcmdr : t.cmdr = s.cmdr) (hstatus : t.status = s.status) (hpend : t.pend = s.pend) : t.Consistent := by
  obtain ⟨hp, hbd, hed, hec, ho, hu⟩ := h
  have hnone : t.pend = none := by simp [hpend, hp, busy]
  constructor <;> simp only [hcmdr, hstatus, hnone]
  · simp [busy]
  all_goals assumption

theorem setBerr {s : State} (h : s.Consistent) (busy : s.status.busy = true) : s.setBerr.Consistent where
  pend_eq := h.pend_eq
  busy_not_done := h.busy_not_done
  err_done := h.err_done
  err_code := h.err_code
  one_order := h.one_order
  untouched := fun hb => by simp [busy] at hb

theorem accept {s : State} (h : s.Consistent) (c : Word) : (s.accept c).Consistent where
  pend_eq := rfl
  busy_not_done := fun _ => rfl
  err_done := by simp
  err_code := by simp
  one_order := h.one_order
  untouched := by simp

/-- After a completion the invariant asks only that ERR and ERRCODE agree and that at most one order flag is 1. -/
theorem of_completed {t : State} (hpend : t.pend = none) (hbusy : t.status.busy = false) (hdone : t.status.done = true)
    (hcode : t.status.err = true ↔ t.status.errcode ≠ .none)
    (horder : ¬ (t.status.lt = true ∧ t.status.eq = true) ∧ ¬ (t.status.lt = true ∧ t.status.gt = true) ∧
      ¬ (t.status.eq = true ∧ t.status.gt = true)) : t.Consistent where
  pend_eq := by simp [hpend, hbusy]
  busy_not_done := by simp [hbusy]
  err_done := fun _ => hdone
  err_code := hcode
  one_order := horder
  untouched := by simp [hdone]

theorem finishError {s : State} (h : s.Consistent) {code : ErrCode} (hcode : code ≠ .none) :
    (s.finishError code).Consistent :=
  of_completed rfl rfl rfl (by simp [hcode]) h.one_order

theorem finish {s : State} (h : s.Consistent) {i : Instr} {e : Ending} (he : e.Of i) : (e.finish s).Consistent := by
  refine of_completed (by simp) (by simp) (by simp) (Ending.finish_err_iff_errcode he s) ?_
  cases e with
  | order o => cases o <;> simp [Ending.finish]
  | error | register | nz | prime => exact h.one_order

theorem reset : State.reset.Consistent where
  pend_eq := rfl
  busy_not_done := fun _ => rfl
  err_done := by simp [State.reset, Status.reset]
  err_code := by simp [State.reset, Status.reset]
  one_order := by simp [State.reset, Status.reset]
  untouched := fun _ _ => ⟨rfl, rfl⟩

theorem hardReset (presented : Option Transaction) (s : State) : (s.hardReset presented).Consistent := by
  rcases presented with _ | (_ | _) <;> exact reset.of_hardware_eq rfl rfl rfl rfl rfl

end State.Consistent

/-- Settles O3. -/
theorem resetStateIsConsistent : Obligations.ResetStateIsConsistent := State.Consistent.reset

/-- Settles O4, one case for each effect a step can have. -/
theorem stepKeepsConsistency : Obligations.StepKeepsConsistency := by
  intro s t hs hstep
  cases stepEffect_of_step hstep with
  | idle => exact hs.withAgenda _
  | illegal => exact (hs.withAgenda _).finishError (by decide)
  | completed _ _ _ _ _ ends => exact (hs.withAgenda _).finish ends
  | read => exact hs.of_hardware_eq rfl rfl rfl rfl rfl
  | writeWithoutEffect => exact hs.withAgenda _
  | writeIgnored _ _ _ _ busy => exact (hs.withAgenda _).setBerr busy
  | accepted => exact (hs.withAgenda _).accept _
  | argWritten _ _ _ busy => exact hs.of_operands_changed_idle busy rfl rfl rfl
  | wordWritten _ _ _ _ _ busy => exact hs.of_operands_changed_idle busy rfl rfl rfl
  | reset => exact State.Consistent.hardReset _ _

/-! ### Which events change ARG, CMDR and the value registers -/

/-- Settles O26: of the effects of a step, the ARG write and reset alone touch ARG. -/
theorem argChangesOnlyByHostWriteOrReset : Obligations.ArgChangesOnlyByHostWriteOrReset := by
  refine ⟨fun s d rest busy next => ?_, fun s t hstep hne => ?_⟩
  · rw [step_host next, State.transact, portWrite_arg_of_idle (s := { s with agenda := rest }) d busy, State.writeArg]
  · cases stepEffect_of_step hstep with
    | argWritten d rest next busy => exact .inl ⟨busy, d, rest, next⟩
    | reset presented rest next => exact .inr ⟨presented, rest, next⟩
    | idle | illegal | completed | read | writeWithoutEffect | writeIgnored | accepted | wordWritten => simp at hne

/-- Settles O47: of the effects of a step, an acceptance and reset alone touch CMDR. -/
theorem cmdrChangesOnlyByAcceptanceOrReset : Obligations.CmdrChangesOnlyByAcceptanceOrReset := by
  intro s t hstep hne
  cases stepEffect_of_step hstep with
  | accepted c rest next busy => exact .inl ⟨busy, rest, next⟩
  | reset presented rest next => exact .inr ⟨presented, rest, next⟩
  | idle | illegal | completed | read | writeWithoutEffect | writeIgnored | argWritten | wordWritten => simp at hne

/-- Settles O42, by the ending the command has. -/
theorem commandsWriteOnlyTheirDestination : Obligations.CommandsWriteOnlyTheirDestination := by
  intro i s t hexec
  obtain ⟨e, he, rfl⟩ := ending_of_exec hexec
  refine ⟨fun r hr => Ending.finish_regs_of_ne he hr s, fun herr => ?_⟩
  obtain ⟨code, rfl⟩ := (e.finish_err_iff s).1 herr
  rfl

/-- Settles O49: a changed register forces a window write of that register, the write of a destination, or reset. -/
theorem valueRegistersChangeOnlyByThreeEvents : Obligations.ValueRegistersChangeOnlyByThreeEvents := by
  intro s t r hstep hne
  cases stepEffect_of_step hstep with
  | completed turn busy i decoded e ends =>
    have hdest : destination i = some r := by
      by_contra hd
      exact hne (Ending.finish_regs_of_ne ends hd _)
    have herr : ¬ (e.finish { s with agenda := s.agenda.tail }).status.err = true := by
      intro herr
      obtain ⟨code, rfl⟩ := (e.finish_err_iff _).1 herr
      exact hne rfl
    exact .inr (.inl ⟨busy, turn, by simpa using herr, i, decoded, hdest⟩)
  | wordWritten v w d rest next busy =>
    obtain rfl : r = v := by
      by_contra hrv
      exact hne (State.writeReg_other _ v r _ hrv)
    exact .inl ⟨busy, w, d, rest, w.isLt, next⟩
  | reset presented rest next => exact .inr (.inr ⟨presented, rest, next⟩)
  | idle | illegal | read | writeWithoutEffect | writeIgnored | accepted | argWritten => simp at hne

/-! ### Flags -/

/-- All five flags of R26 agree. -/
def SameFlags (f g : Status) : Prop :=
  f.lt = g.lt ∧ f.eq = g.eq ∧ f.gt = g.gt ∧ f.nz = g.nz ∧ f.prime = g.prime

/-- Any step but a reset keeps all five flags, unless it is the completion of a decoded command (R26). -/
theorem StepEffect.sameFlags_or_completed {s t : State} (h : StepEffect s t)
    (hreset : ∀ presented rest, s.agenda ≠ .reset presented :: rest) :
    SameFlags t.status s.status ∨
      (s.status.busy = true ∧ (s.agenda = [] ∨ ∃ rest, s.agenda = .engine :: rest) ∧
        ∃ i e, decode s.cmdr = .ok i ∧ Ending.Of i e ∧ t = e.finish { s with agenda := s.agenda.tail }) := by
  cases h with
  | completed turn busy i decoded e ends => exact .inr ⟨busy, turn, i, e, decoded, ends, rfl⟩
  | reset presented rest next => exact absurd next (hreset presented rest)
  | idle | illegal | read | writeWithoutEffect | writeIgnored | accepted | argWritten | wordWritten =>
    exact .inl ⟨rfl, rfl, rfl, rfl, rfl⟩

/-- Which command's completion writes which flag, and with what (R26). -/
theorem exec_flags (i : Instr) (s t : State) (hexec : exec i s = .next t) :
    ((∀ rs1 rs2, i ≠ .cmp rs1 rs2) →
      t.status.lt = s.status.lt ∧ t.status.eq = s.status.eq ∧ t.status.gt = s.status.gt) ∧
    ((∃ rs1 rs2, i = .cmp rs1 rs2) →
      (t.status.lt = true ∧ t.status.eq = false ∧ t.status.gt = false) ∨
      (t.status.lt = false ∧ t.status.eq = true ∧ t.status.gt = false) ∨
      (t.status.lt = false ∧ t.status.eq = false ∧ t.status.gt = true)) ∧
    ((∀ rs1, i ≠ .tst rs1) → t.status.nz = s.status.nz) ∧
    ((∀ rs1 rounds, i ≠ .isprime rs1 rounds) → t.status.prime = s.status.prime) ∧
    (t.status.err = true → SameFlags t.status s.status) := by
  obtain ⟨e, he, rfl⟩ := ending_of_exec hexec
  refine ⟨fun hi => Ending.finish_order_flags ?_ s, ?_, fun hi => Ending.finish_nz_flag ?_ s,
    fun hi => Ending.finish_prime_flag ?_ s, fun herr => ?_⟩
  · rintro o rfl
    obtain ⟨rs1, rs2, rfl⟩ := he
    exact hi rs1 rs2 rfl
  · rintro ⟨rs1, rs2, rfl⟩
    obtain ⟨o, rfl⟩ := he.eq_order
    cases o <;> simp [Ending.finish]
  · rintro b rfl
    obtain ⟨rs1, rfl⟩ := he
    exact hi rs1 rfl
  · rintro b rfl
    obtain ⟨rs1, rounds, rfl⟩ := he
    exact hi rs1 rounds rfl
  · obtain ⟨code, rfl⟩ := (e.finish_err_iff s).1 herr
    exact ⟨rfl, rfl, rfl, rfl, rfl⟩

/-- The machine with the flags of `f` in place of its own. -/
def State.withFlags (f : Status) (s : State) : State :=
  { s with status := { s.status with lt := f.lt, eq := f.eq, gt := f.gt, nz := f.nz, prime := f.prime } }

/-- No command reads a flag (R26): both completions have the ending the common snapshot determines. -/
theorem exec_withFlags (i : Instr) (s t t' : State) (f : Status) (hexec : exec i s = .next t)
    (hexec' : exec i (s.withFlags f) = .next t') :
    t'.regs = t.regs ∧ t'.status.err = t.status.err ∧ t'.status.errcode = t.status.errcode ∧
    ((∃ rs1 rs2, i = .cmp rs1 rs2) →
      t'.status.lt = t.status.lt ∧ t'.status.eq = t.status.eq ∧ t'.status.gt = t.status.gt) ∧
    ((∃ rs1, i = .tst rs1) → t'.status.nz = t.status.nz) ∧
    ((∃ rs1 rounds, i = .isprime rs1 rounds) → t'.status.err = false → t'.status.prime = t.status.prime) := by
  obtain ⟨e, he, hends⟩ := exec_ending i s.snapshot
  have ht : t = e.finish s := by simpa [hends s rfl] using hexec.symm
  have ht' : t' = e.finish (s.withFlags f) := by simpa [hends (s.withFlags f) rfl] using hexec'.symm
  subst ht ht'
  refine ⟨e.finish_regs_congr rfl, e.finish_err_congr _ _, e.finish_errcode_congr _ _, ?_, ?_, ?_⟩
  · rintro ⟨rs1, rs2, rfl⟩
    obtain ⟨o, rfl⟩ := he.eq_order
    exact ⟨rfl, rfl, rfl⟩
  · rintro ⟨rs1, rfl⟩
    obtain ⟨b, rfl⟩ := he.eq_nz
    rfl
  · rintro ⟨rs1, rounds, rfl⟩ herr
    obtain ⟨b, rfl⟩ | ⟨code, rfl⟩ := he.eq_prime_or_error
    · rfl
    · simp [Ending.finish] at herr

/-- A flag that changed over a step other than a reset names the command that completed and wrote it (R26). -/
theorem step_flags (s t : State) (hstep : step s = .next t)
    (hreset : ∀ presented rest, s.agenda ≠ .reset presented :: rest) :
    (t.status.lt ≠ s.status.lt ∨ t.status.eq ≠ s.status.eq ∨ t.status.gt ≠ s.status.gt →
      s.status.busy = true ∧ (s.agenda = [] ∨ ∃ rest, s.agenda = .engine :: rest) ∧ t.status.err = false ∧
        ∃ rs1 rs2, decode s.cmdr = .ok (.cmp rs1 rs2)) ∧
    (t.status.nz ≠ s.status.nz →
      s.status.busy = true ∧ (s.agenda = [] ∨ ∃ rest, s.agenda = .engine :: rest) ∧ t.status.err = false ∧
        ∃ rs1, decode s.cmdr = .ok (.tst rs1)) ∧
    (t.status.prime ≠ s.status.prime →
      s.status.busy = true ∧ (s.agenda = [] ∨ ∃ rest, s.agenda = .engine :: rest) ∧ t.status.err = false ∧
        ∃ rs1 rounds, decode s.cmdr = .ok (.isprime rs1 rounds)) := by
  obtain ⟨hlt, heq, hgt, hnz, hprime⟩ | ⟨busy, turn, i, e, decoded, ends, rfl⟩ :=
    (stepEffect_of_step hstep).sameFlags_or_completed hreset
  · simp [hlt, heq, hgt, hnz, hprime]
  · cases e with
    | error | register => simp [Ending.finish]
    | order o =>
      obtain ⟨rs1, rs2, rfl⟩ := ends
      exact ⟨fun _ => ⟨busy, turn, rfl, rs1, rs2, decoded⟩, fun h => absurd rfl h, fun h => absurd rfl h⟩
    | nz b =>
      obtain ⟨rs1, rfl⟩ := ends
      exact ⟨by simp [Ending.finish], fun _ => ⟨busy, turn, rfl, rs1, decoded⟩, fun h => absurd rfl h⟩
    | prime b =>
      obtain ⟨rs1, rounds, rfl⟩ := ends
      exact ⟨by simp [Ending.finish], fun h => absurd rfl h, fun _ => ⟨busy, turn, rfl, rs1, rounds, decoded⟩⟩

/-- Settles O43: its four parts are `exec_flags`, the frame of an acceptance, `exec_withFlags` and `step_flags`. -/
theorem flagsAreWrittenOnlyByTheirCommand : Obligations.FlagsAreWrittenOnlyByTheirCommand := by
  refine ⟨exec_flags, fun s t c rest busy next hstep => ?_, exec_withFlags, step_flags⟩
  rw [step_host next, State.transact, portWrite_cmd_of_idle (s := { s with agenda := rest }) c busy] at hstep
  cases hstep
  exact ⟨rfl, rfl, rfl, rfl, rfl⟩

/-! ### Reset values and the STATUS word -/

/-- Settles O1, field by field of R33. -/
theorem resetStateHoldsSpecValues : Obligations.ResetStateHoldsSpecValues := by
  refine ⟨fun r w _ => ?_, rfl, rfl, rfl, by decide, rfl, rfl⟩
  have hzero : State.reset.regs[r] = 0#4096 := by simp [State.reset]
  rw [hzero, word_zero]

/-- STATUS bit by bit: its fields from BUSY up, and 0 from bit 13 (R25). -/
theorem statusWord_getLsbD (st : Status) (i : Nat) :
    (statusWord st).getLsbD i =
      if i = 0 then st.busy else if i = 1 then st.done else if i = 2 then st.err else if i = 3 then st.berr
      else if i < 8 then (errCodeBits st.errcode).getLsbD (i - 4)
      else if i = 8 then st.lt else if i = 9 then st.eq else if i = 10 then st.gt else if i = 11 then st.nz
      else if i = 12 then st.prime else false := by
  unfold statusWord
  change (0#51 ++ BitVec.ofBool st.prime ++ BitVec.ofBool st.nz ++ BitVec.ofBool st.gt ++ BitVec.ofBool st.eq ++
    BitVec.ofBool st.lt ++ errCodeBits st.errcode ++ BitVec.ofBool st.berr ++ BitVec.ofBool st.err ++
    BitVec.ofBool st.done ++ BitVec.ofBool st.busy).getLsbD i = _
  simp only [BitVec.getLsbD_append, BitVec.getLsbD_ofBool, BitVec.getLsbD_zero, Nat.sub_sub]
  by_cases hi : i < 13
  · interval_cases i <;> simp
  · simp (disch := omega) only [if_neg]

theorem statusWord_errcode (st : Status) : (statusWord st).extractLsb' 4 4 = errCodeBits st.errcode := by
  refine BitVec.eq_of_getLsbD_eq fun i hi => ?_
  rw [BitVec.getLsbD_extractLsb', statusWord_getLsbD]
  simp (disch := omega) [if_neg, if_pos, hi]

/-- Bits 63:13 read 0 (R25). -/
theorem statusWord_reserved (st : Status) : (statusWord st).extractLsb' 13 51 = 0#51 := by
  refine BitVec.eq_of_getLsbD_eq fun i hi => ?_
  rw [BitVec.getLsbD_extractLsb', statusWord_getLsbD]
  simp (disch := omega) [if_neg]

/-- Settles O23: each single bit by `statusWord_getLsbD`, and the code each error has. -/
theorem statusWordHasTheSpecLayout : Obligations.StatusWordHasTheSpecLayout := by
  intro st
  rw [statusWord_errcode, statusWord_reserved]
  simp only [statusWord_getLsbD]
  refine ⟨rfl, rfl, rfl, rfl, ?_, rfl, rfl, rfl, rfl, rfl, trivial⟩
  cases st.errcode <;> rfl

end Sys2Proof.Machine

/-! ## Proofs about the register port (spec/20_memory.md)

The address map and each transaction are said once: what an offset names, what a read returns, what a write does while BUSY = 1
and while BUSY = 0. A statement about one transaction is then `step_host` with one of these rules. The command in flight
has `SameUpToBerr`: every transaction before its completion keeps it, and so does the completion (R58, R62). -/

namespace Sys2Proof.Machine

/-! ### What an offset names -/

theorem portTarget_id : portTarget 0x0000#16 = .id := by decide
theorem portTarget_cmd : portTarget 0x0008#16 = .cmd := by decide
theorem portTarget_status : portTarget 0x0010#16 = .status := by decide
theorem portTarget_arg : portTarget 0x0018#16 = .arg := by decide

/-- `portTarget_vwinOffset` for an offset written out in natural numbers (R54). -/
theorem portTarget_window {v w : Nat} (hv : v < 16) (hw : w < 64) :
    portTarget (BitVec.ofNat 16 (0x1000 + 0x200 * v + 8 * w)) = .vwin ⟨v, hv⟩ ⟨w, hw⟩ :=
  portTarget_vwinOffset ⟨v, hv⟩ ⟨w, hw⟩

/-- The alignment check comes first (R52). -/
theorem portTarget_of_misaligned {off : BitVec 16} (h : off.toNat % 8 ≠ 0) : portTarget off = .misaligned := if_pos h

/-- Between ARG and the window, and above the window, every aligned offset is reserved (R53). -/
theorem portTarget_of_unmapped {off : BitVec 16}
    (h : (0x0020 ≤ off.toNat ∧ off.toNat ≤ 0x0FF8) ∨ (0x3000 ≤ off.toNat ∧ off.toNat ≤ 0xFFF8)) :
    portTarget off = .misaligned ∨ portTarget off = .reserved := by
  by_cases ha : off.toNat % 8 = 0
  · right
    rw [portTarget, if_neg (not_not.2 ha), if_neg (by omega), if_neg (by omega), if_neg (by omega), if_neg (by omega),
      if_neg (by omega)]
  · exact .inl (portTarget_of_misaligned ha)

/-! ### Reads -/

/-- A read at a target that holds no value, misaligned or reserved, returns 0 (R52, R57). -/
theorem portData_of_unmapped {s : State} {off : BitVec 16}
    (h : portTarget off = .misaligned ∨ portTarget off = .reserved) : s.portData off = 0#64 := by
  rcases h with h | h <;> simp only [State.portData, h]

/-- A window read while BUSY = 0 returns the word (R54). -/
theorem portData_window_of_idle {s : State} (v : VReg) {w : Nat} (hw : w < 64) (busy : s.status.busy = false) :
    s.portData (BitVec.ofNat 16 (0x1000 + 0x200 * v.val + 8 * w)) = word s.regs[v] w := by
  simp [State.portData, portTarget_window v.isLt hw, busy]

theorem portDraws_of_unmapped {s : State} {off : BitVec 16}
    (h : portTarget off = .misaligned ∨ portTarget off = .reserved) : s.portDraws off = 0 := by
  rcases h with h | h <;> simp only [State.portDraws, h]

/-- While BUSY = 0 no read draws a free value (R56, R59). -/
theorem portDraws_of_idle {s : State} {off : BitVec 16} (busy : s.status.busy = false) : s.portDraws off = 0 := by
  unfold State.portDraws
  split <;> simp [busy]

theorem portDraws_window_of_busy {s : State} (v : VReg) {w : Nat} (hw : w < 64) (busy : s.status.busy = true) :
    s.portDraws (BitVec.ofNat 16 (0x1000 + 0x200 * v.val + 8 * w)) = 1 := by
  simp [State.portDraws, portTarget_window v.isLt hw, busy]

/-- With a read next, the step returns its data and counts its draws, and does nothing else (R61). -/
theorem step_read {s : State} {off : BitVec 16} {rest : List Event} (next : s.agenda = .host (.read off) :: rest) :
    step s = .next { s with agenda := rest, received := s.received ++ [s.portData off],
                            draws := s.draws + s.portDraws off } :=
  step_host next

/-- A read that draws no free value does nothing but return its data (R56). -/
theorem step_read_exact {s : State} {off : BitVec 16} {rest : List Event} (next : s.agenda = .host (.read off) :: rest)
    {x : Word} (hdata : s.portData off = x) (hdraws : s.portDraws off = 0) :
    step s = .next { s with agenda := rest, received := s.received ++ [x] } := by
  rw [step_read next, hdata, hdraws, Nat.add_zero]

/-- A window read while BUSY = 0 is exact (R54, R56). -/
theorem step_windowRead_of_idle {s : State} {v : VReg} {w : Nat} {rest : List Event} (hw : w < 64)
    (busy : s.status.busy = false)
    (next : s.agenda = .host (.read (BitVec.ofNat 16 (0x1000 + 0x200 * v.val + 8 * w))) :: rest) :
    step s = .next { s with agenda := rest, received := s.received ++ [word s.regs[v] w] } :=
  step_read_exact next (portData_window_of_idle v hw busy) (portDraws_of_idle busy)

/-! ### Writes -/

/-- Misaligned, read-only and reserved: a write there changes nothing, whatever BUSY is (R52, R57). -/
theorem portWrite_of_unwritable {s : State} {off : BitVec 16} (d : Word)
    (h : portTarget off = .misaligned ∨ portTarget off = .id ∨ portTarget off = .status ∨ portTarget off = .reserved) :
    s.portWrite off d = s := by
  rcases h with h | h | h | h <;> simp only [State.portWrite, h]

/-- CMD, ARG and the window: while BUSY = 1 a write there is ignored and sets BERR (R58). -/
theorem portWrite_of_busy {s : State} {off : BitVec 16} (d : Word) (busy : s.status.busy = true)
    (h : portTarget off = .cmd ∨ portTarget off = .arg ∨ ∃ v w, portTarget off = .vwin v w) :
    s.portWrite off d = s.setBerr := by
  obtain h | h | ⟨v, w, h⟩ := h <;> simp only [State.portWrite, h, busy, if_true]

/-- A window write while BUSY = 0 replaces one word (R54). -/
theorem portWrite_window_of_idle {s : State} (v : VReg) {w : Nat} (hw : w < 64) (d : Word) (busy : s.status.busy = false) :
    s.portWrite (BitVec.ofNat 16 (0x1000 + 0x200 * v.val + 8 * w)) d = s.writeReg v (setWord s.regs[v] w d) := by
  simp [State.portWrite, portTarget_window v.isLt hw, busy]

/-- Word `w'` of register `v'` after word `w` of register `v` was replaced (R54). -/
theorem word_writeReg_setWord (s : State) (v v' : VReg) {w w' : Nat} (hw' : w' < 64) (d : Word) :
    word (s.writeReg v (setWord s.regs[v] w d)).regs[v'] w' = if v' = v ∧ w' = w then d else word s.regs[v'] w' := by
  by_cases hv : v' = v
  · subst hv
    rw [State.writeReg_same, word_setWord _ _ _ _ hw']
    simp only [true_and, eq_comm]
  · rw [State.writeReg_other _ _ _ _ hv, if_neg fun h => hv h.1]

/-- Storing the word a value already holds changes nothing. -/
theorem setWord_eq_self {a : Value} {w : Nat} {d : Word} (h : word a w = d) : setWord a w d = a := by
  refine value_ext fun w' hw' => ?_
  rw [word_setWord _ _ _ _ hw']
  split
  · next e => rw [← e, h]
  · rfl

/-- Storing the value a register already holds changes nothing. -/
theorem State.writeReg_eq_self (s : State) (v : VReg) : s.writeReg v s.regs[v] = s := by
  simp [State.writeReg]

/-- With a write next, the step is the port write (R51). -/
theorem step_write {s : State} {off : BitVec 16} {d : Word} {rest : List Event}
    (next : s.agenda = .host (.write off d) :: rest) :
    step s = .next (State.portWrite off d { s with agenda := rest }) :=
  step_host next

/-- A window write while BUSY = 0 writes the register with that one word replaced, and nothing else (R54). -/
theorem step_windowWrite_of_idle {s : State} {v : VReg} {w : Nat} {d : Word} {rest : List Event} (hw : w < 64)
    (busy : s.status.busy = false)
    (next : s.agenda = .host (.write (BitVec.ofNat 16 (0x1000 + 0x200 * v.val + 8 * w)) d) :: rest) :
    step s = .next (State.writeReg v (setWord s.regs[v] w d) { s with agenda := rest }) := by
  rw [step_write next, portWrite_window_of_idle (s := { s with agenda := rest }) v hw d busy]

/-- A window write of the word already there changes nothing (R61). -/
theorem step_windowWrite_of_stored {s : State} {v : VReg} {w : Nat} {d : Word} {rest : List Event} (hw : w < 64)
    (busy : s.status.busy = false)
    (next : s.agenda = .host (.write (BitVec.ofNat 16 (0x1000 + 0x200 * v.val + 8 * w)) d) :: rest)
    (stored : word s.regs[v] w = d) : step s = .next { s with agenda := rest } := by
  rw [step_windowWrite_of_idle hw busy next, setWord_eq_self stored]
  exact congrArg _ (State.writeReg_eq_self { s with agenda := rest } v)

/-! ### The command in flight -/

/-- The hardware of `s` and of `t` is the same, BERR apart. -/
structure SameUpToBerr (s t : State) : Prop where
  regs_eq : t.regs = s.regs
  arg_eq : t.arg = s.arg
  cmdr_eq : t.cmdr = s.cmdr
  pend_eq : t.pend = s.pend
  status_eq : ∃ b, t.status = { s.status with berr := b }

namespace SameUpToBerr

theorem refl (s : State) : SameUpToBerr s s := ⟨rfl, rfl, rfl, rfl, s.status.berr, rfl⟩

theorem trans {s t u : State} (h : SameUpToBerr s t) (h' : SameUpToBerr t u) : SameUpToBerr s u := by
  obtain ⟨b, hb⟩ := h.status_eq
  obtain ⟨b', hb'⟩ := h'.status_eq
  exact ⟨h'.regs_eq.trans h.regs_eq, h'.arg_eq.trans h.arg_eq, h'.cmdr_eq.trans h.cmdr_eq, h'.pend_eq.trans h.pend_eq,
    b', by rw [hb', hb]⟩

theorem withAgenda {s t : State} (h : SameUpToBerr s t) (l : List Event) :
    SameUpToBerr { s with agenda := l } { t with agenda := l } :=
  ⟨h.regs_eq, h.arg_eq, h.cmdr_eq, h.pend_eq, h.status_eq⟩

theorem busy_eq {s t : State} (h : SameUpToBerr s t) : t.status.busy = s.status.busy := by
  obtain ⟨b, hb⟩ := h.status_eq
  rw [hb]

/-- The operands of the command in flight are the same (R93). -/
theorem snapshot_eq {s t : State} (h : SameUpToBerr s t) : t.snapshot = s.snapshot := by
  simp only [State.snapshot, h.pend_eq, h.cmdr_eq, h.regs_eq, h.arg_eq]

/-- Two machines that differ in BERR alone still do after the same ending, which does not read BERR (R210). -/
theorem finish {s t : State} (h : SameUpToBerr s t) (e : Ending) : SameUpToBerr (e.finish s) (e.finish t) where
  regs_eq := e.finish_regs_congr h.regs_eq
  arg_eq := by simp [h.arg_eq]
  cmdr_eq := by simp [h.cmdr_eq]
  pend_eq := by simp
  status_eq := by
    obtain ⟨b, hb⟩ := h.status_eq
    refine ⟨b, ?_⟩
    cases e <;> simp [Ending.finish, hb]

/-- While BUSY = 1 a transaction touches nothing of the hardware but BERR (R58, R61). -/
theorem transact {s : State} (busy : s.status.busy = true) (tr : Transaction) (l : List Event) :
    SameUpToBerr s (State.transact tr { s with agenda := l }) := by
  cases tr with
  | read off => exact ⟨rfl, rfl, rfl, rfl, s.status.berr, rfl⟩
  | write off d =>
    simp only [State.transact]
    obtain ⟨-, hw⟩ | ⟨-, hw⟩ | ⟨idle, -⟩ | ⟨idle, -⟩ | ⟨idle, -⟩ := portWrite_cases { s with agenda := l } off d
    · rw [hw]; exact ⟨rfl, rfl, rfl, rfl, s.status.berr, rfl⟩
    · rw [hw]; exact ⟨rfl, rfl, rfl, rfl, true, rfl⟩
    all_goals simp [busy] at idle

end SameUpToBerr

/-- A transaction does not touch the events still to come. -/
theorem transact_agenda (tr : Transaction) (s : State) : (s.transact tr).agenda = s.agenda := by
  cases tr with
  | read off => rfl
  | write off d =>
    simp only [State.transact]
    obtain ⟨-, hw⟩ | ⟨-, hw⟩ | ⟨-, -, hw⟩ | ⟨-, -, hw⟩ | ⟨-, -, v, w, -, hw⟩ := portWrite_cases s off d <;> rw [hw] <;> rfl

@[simp] theorem Ending.finish_agenda (e : Ending) (s : State) : (e.finish s).agenda = s.agenda := by cases e <;> rfl

/-- CMDR and the snapshot alone determine how the command in flight ends (R202, R207). -/
theorem complete_ending (c : Word) (p : Pending) :
    ∃ e : Ending, ∀ s : State, s.cmdr = c → s.snapshot = p → complete s = .next (e.finish s) := by
  cases hd : decode c with
  | error reason => exact ⟨.error .illegalCmd, fun s hc _ => by simp only [complete, hc, hd, Ending.finish]⟩
  | ok i =>
    obtain ⟨e, -, he⟩ := exec_ending i p
    exact ⟨e, fun s hc hs => by simp only [complete, hc, hd, he s hs]⟩

/-- The engine's turn with a command in flight is its completion (R202). -/
theorem step_engine_of_busy {s : State} {rest : List Event} (busy : s.status.busy = true)
    (next : s.agenda = .engine :: rest) : step s = complete { s with agenda := rest } := by
  simp only [step, nextEvent, next, engineTurn, busy, if_true]

/-- Any number of transactions while BUSY = 1 runs to a state that differs in BERR alone (R58, R62). -/
theorem run_transactions_of_busy (ts : List Transaction) {s : State} {es : List Event} (busy : s.status.busy = true)
    (next : s.agenda = ts.map Event.host ++ es) :
    ∃ t, SameUpToBerr s t ∧ t.agenda = es ∧
      ∀ n, Sys2Proof.core.run (ts.length + n) s = Sys2Proof.core.run n t := by
  induction ts generalizing s with
  | nil => exact ⟨s, .refl s, next, fun n => by rw [List.length_nil, Nat.zero_add]⟩
  | cons tr ts ih =>
    have hsame := SameUpToBerr.transact busy tr (ts.map Event.host ++ es)
    obtain ⟨t, ht, hagenda, hrun⟩ := ih (hsame.busy_eq.trans busy) (transact_agenda tr _)
    refine ⟨t, hsame.trans ht, hagenda, fun n => ?_⟩
    rw [List.length_cons, Nat.add_right_comm]
    exact (run_succ _ _ _ (step_host next)).trans (hrun n)

/-- Settles O18: the transactions keep `SameUpToBerr`, so both machines complete with the one ending, which keeps it too. -/
theorem hostCannotDisturbACommandInFlight : Obligations.HostCannotDisturbACommandInFlight := by
  intro s ts rest busy next
  obtain ⟨m, hm, hagenda, hrun⟩ := run_transactions_of_busy ts busy next
  obtain ⟨e, he⟩ := complete_ending s.cmdr s.snapshot
  have hstep : step m = .next (e.finish { m with agenda := rest }) :=
    (step_engine_of_busy (hm.busy_eq.trans busy) hagenda).trans (he _ hm.cmdr_eq hm.snapshot_eq)
  have hstep' : step { s with agenda := .engine :: rest } = .next (e.finish { s with agenda := rest }) :=
    (step_engine_of_busy (s := { s with agenda := .engine :: rest }) busy rfl).trans (he _ rfl rfl)
  obtain ⟨hr, ha, hc, hp, b, hst⟩ := (hm.withAgenda rest).finish e
  refine ⟨_, _, ?_, hstep', hr, ha, hc, hp, by simp, by rw [hst]⟩
  rw [hrun 1, run_succ _ _ _ hstep, run_zero]

/-- Settles O16: a completion always has an ending, and the other effects answer at once. -/
theorem everyStepAnswersANextState : Obligations.EveryStepAnswersANextState := by
  intro s
  obtain ⟨-, -, hs⟩ | ⟨-, -, hs⟩ | ⟨tr, rest, -, hs⟩ | ⟨presented, rest, -, hs⟩ := step_cases s
  · exact ⟨_, hs⟩
  · obtain ⟨e, he⟩ := complete_ending s.cmdr s.snapshot
    exact ⟨_, hs.trans (he _ rfl rfl)⟩
  · exact ⟨_, hs⟩
  · exact ⟨_, hs⟩

/-! ### The statements about single transactions -/

/-- A step other than an acceptance or reset keeps a BERR of 1 (R58, R210). -/
theorem StepEffect.berr_kept {s t : State} (h : StepEffect s t) (berr : s.status.berr = true) :
    t.status.berr = true ∨ (s.status.busy = false ∧ ∃ c rest, s.agenda = .host (.write 0x0008#16 c) :: rest) ∨
      ∃ presented rest, s.agenda = .reset presented :: rest := by
  cases h with
  | accepted c rest next busy => exact .inr (.inl ⟨busy, c, rest, next⟩)
  | reset presented rest next => exact .inr (.inr ⟨presented, rest, next⟩)
  | completed _ _ _ _ e _ => cases e <;> exact .inl berr
  | writeIgnored => exact .inl rfl
  | idle | illegal | read | writeWithoutEffect | argWritten | wordWritten => exact .inl berr

/-- Settles O19: the ignored write, what a step does to BERR, and the acceptance that clears it. -/
theorem busyWritesOnlySetBerr : Obligations.BusyWritesOnlySetBerr := by
  refine ⟨fun s off d rest busy next hoff => ?_, fun s t berr hstep => (stepEffect_of_step hstep).berr_kept berr,
    fun s c rest busy next => ?_⟩
  · have htarget : portTarget off = .cmd ∨ portTarget off = .arg ∨ ∃ v w, portTarget off = .vwin v w := by
      obtain rfl | rfl | ⟨v, w, hv, hw, rfl⟩ := hoff
      · exact .inl portTarget_cmd
      · exact .inr (.inl portTarget_arg)
      · exact .inr (.inr ⟨_, _, portTarget_window hv hw⟩)
    rw [step_write next, portWrite_of_busy (s := { s with agenda := rest }) d busy htarget, State.setBerr]
  · rw [step_write next, portWrite_cmd_of_idle (s := { s with agenda := rest }) c busy]
    exact ⟨_, rfl, rfl⟩

/-- Settles O21: what the offset names decides, and BUSY is not asked. -/
theorem misalignedAndReservedAccessesDoNothing : Obligations.MisalignedAndReservedAccessesDoNothing := by
  refine fun s off rest => ⟨fun d next hoff => ?_, fun next hoff => ?_⟩
  · have htarget : portTarget off = .misaligned ∨ portTarget off = .id ∨ portTarget off = .status ∨
        portTarget off = .reserved := by
      obtain h | h | h | h := hoff
      · exact .inl (portTarget_of_misaligned h)
      · exact .inr (.inl (by rw [BitVec.eq_of_toNat_eq (y := 0x0000#16) h, portTarget_id]))
      · exact .inr (.inr (.inl (by rw [BitVec.eq_of_toNat_eq (y := 0x0010#16) h, portTarget_status])))
      · exact (portTarget_of_unmapped h).imp_right fun h => .inr (.inr h)
    rw [step_write next, portWrite_of_unwritable d htarget]
  · have htarget : portTarget off = .misaligned ∨ portTarget off = .reserved :=
      hoff.elim (fun h => .inl (portTarget_of_misaligned h)) portTarget_of_unmapped
    exact step_read_exact next (portData_of_unmapped htarget) (portDraws_of_unmapped htarget)

/-- Settles O22: at the four fixed offsets the data and the draws evaluate, a window read is exact while idle, and the two
bits of STATUS follow from the invariant. -/
theorem readsAreExactAndSideEffectFree : Obligations.ReadsAreExactAndSideEffectFree := by
  intro s off rest next
  refine ⟨?id, ?cmd, ?status, ?arg, ?window, fun hs busy => ?statusBits⟩
  case id | cmd | status | arg =>
    rintro rfl
    exact step_read_exact next rfl rfl
  case window =>
    rintro v w hw rfl busy
    exact step_windowRead_of_idle hw busy next
  case statusBits =>
    rw [statusWord_getLsbD, statusWord_getLsbD]
    exact ⟨busy, hs.busy_not_done busy⟩

/-- Settles O25: the address formula, the window read, and the window write word by word. -/
theorem windowAccessesMoveExactlyOneWord : Obligations.WindowAccessesMoveExactlyOneWord := by
  refine ⟨fun off _ _ _ => by omega, fun s v w rest hw busy next => step_windowRead_of_idle hw busy next,
    fun s v w d rest hw busy next => ?_⟩
  exact ⟨_, step_windowWrite_of_idle hw busy next, fun v' w' hw' => word_writeReg_setWord _ v v' hw' d, rfl⟩

/-- Settles O27: a read's frame, and the second write, which stores what is already there. -/
theorem readsHaveNoSideEffectAndWritesAreIdempotent : Obligations.ReadsHaveNoSideEffectAndWritesAreIdempotent := by
  refine ⟨fun s off rest next => ⟨_, step_read next, rfl, rfl, rfl, rfl, rfl⟩, fun s off d rest busy hoff next => ?_⟩
  obtain rfl | ⟨v, w, hv, hw, rfl⟩ := hoff
  · have hwrite := argChangesOnlyByHostWriteOrReset.1
    exact ⟨_, hwrite s d _ busy next, hwrite _ d rest busy rfl⟩
  · exact ⟨_, step_windowWrite_of_idle (v := ⟨v, hv⟩) hw busy next, step_windowWrite_of_stored (v := ⟨v, hv⟩) hw busy rfl
      ((word_writeReg_setWord _ _ _ hw d).trans (if_pos ⟨rfl, rfl⟩))⟩

/-- Byte `j` of a value is byte `j % 8` of its word `j / 8` (R12, R55). -/
theorem extractLsb'_word (a : Value) (j : Nat) : (word a (j / 8)).extractLsb' (8 * (j % 8)) 8 = a.extractLsb' (8 * j) 8 := by
  refine BitVec.eq_of_getLsbD_eq fun i hi => ?_
  simp only [BitVec.getLsbD_extractLsb', word_getLsbD, hi, decide_true, Bool.true_and,
    show 8 * (j % 8) + i < 64 by omega, show 64 * (j / 8) + (8 * (j % 8) + i) = 8 * j + i by omega]

/-- Settles O28, by the word the window read returns. -/
theorem platformBytesAreLittleEndian : Obligations.PlatformBytesAreLittleEndian := by
  intro s v j hj busy
  rw [State.platformByte, portData_window_of_idle v (by omega) busy]
  exact extractLsb'_word s.regs[v] j

/-- Settles O24: the value returned is whatever the port's data is. -/
theorem busyWindowReadReturnsSomeValueOnly : Obligations.BusyWindowReadReturnsSomeValueOnly := by
  intro s v w rest hw busy next
  have hstep := step_read next
  rw [portDraws_window_of_busy v hw busy] at hstep
  exact ⟨_, hstep⟩

end Sys2Proof.Machine

/-! ## Proofs about the encoding (spec/30_encoding.md)

The table of R84 (which fields a command uses) stands beside the model's table of R85 (mask and pattern): `opcodeTable_hasUse`
ties each row of the one to the row of the other. From it, `RowHasUse.matchesWord_iff` says when a word matches a row, field by
field (R86), and every statement below follows from that rule and from the two directions of `decode` (R88, R89). -/

namespace Sys2Proof

/-! ### A word and its fields -/

/-- Every word is put together from its fields (R81). -/
theorem joinFields_extractLsb' (c : Word) :
    joinFields (c.extractLsb' 0 8) (c.extractLsb' 8 4) (c.extractLsb' 12 4) (c.extractLsb' 16 4) (c.extractLsb' 20 4)
      (c.extractLsb' 24 8) (c.extractLsb' 32 32) = c := by
  apply BitVec.eq_of_toNat_eq
  simp only [joinFields_toNat, BitVec.extractLsb'_toNat, Nat.shiftRight_eq_div_pow]
  have := c.isLt
  omega

/-- Words with the same fields are the same, and only they are (R81). -/
theorem joinFields_inj {op op' : BitVec 8} {rd rs1 rs2 rs3 rd' rs1' rs2' rs3' : BitVec 4} {rsv rsv' : BitVec 8}
    {imm imm' : BitVec 32} :
    joinFields op rd rs1 rs2 rs3 rsv imm = joinFields op' rd' rs1' rs2' rs3' rsv' imm' ↔
      op = op' ∧ rd = rd' ∧ rs1 = rs1' ∧ rs2 = rs2' ∧ rs3 = rs3' ∧ rsv = rsv' ∧ imm = imm' := by
  simp only [BitVec.toNat_eq, joinFields_toNat]
  have := op.isLt
  have := op'.isLt
  have := rd.isLt
  have := rd'.isLt
  have := rs1.isLt
  have := rs1'.isLt
  have := rs2.isLt
  have := rs2'.isLt
  have := rs3.isLt
  have := rs3'.isLt
  have := rsv.isLt
  have := rsv'.isLt
  omega

/-! ### Which fields a row uses -/

/-- An entry of R84's table: the opcode, and which fields the command uses. The fields it does not use must be 0 (R86). -/
structure FieldUse where
  op : BitVec 8
  rd : Bool
  rs1 : Bool
  rs2 : Bool
  rs3 : Bool
  imm : Bool

/-- The table of R84, in the order of `opcodeTable`. -/
def fieldUses : List FieldUse :=
  [⟨0x01, true, true, true, false, false⟩, ⟨0x02, true, true, true, false, false⟩,
   ⟨0x03, true, true, true, false, false⟩, ⟨0x04, true, true, true, false, false⟩,
   ⟨0x05, true, true, true, false, false⟩, ⟨0x06, true, true, true, true, false⟩,
   ⟨0x07, false, true, false, false, true⟩, ⟨0x10, true, true, true, false, false⟩,
   ⟨0x11, true, true, true, false, false⟩, ⟨0x12, true, true, true, false, false⟩,
   ⟨0x13, true, true, false, false, false⟩, ⟨0x14, true, true, false, false, true⟩,
   ⟨0x15, true, true, false, false, true⟩, ⟨0x18, false, true, true, false, false⟩,
   ⟨0x19, false, true, false, false, false⟩, ⟨0x20, true, false, false, false, false⟩]

/-- The bits a row fixes in a field: none if it uses the field, else all. -/
def fixedBits (n : Nat) (used : Bool) : BitVec n := if used then 0#n else BitVec.allOnes n

theorem and_fixedBits_eq_zero_iff {n : Nat} (x : BitVec n) (used : Bool) :
    x &&& fixedBits n used = 0#n ↔ (used = false → x = 0#n) := by
  cases used <;> simp [fixedBits]

namespace FieldUse

/-- The mask of R85 that R84 and R86 ask for. -/
def mask (u : FieldUse) : Word :=
  joinFields 0xFF#8 (fixedBits 4 u.rd) (fixedBits 4 u.rs1) (fixedBits 4 u.rs2) (fixedBits 4 u.rs3) 0xFF#8 (fixedBits 32 u.imm)

/-- The operands with 0 in every field the row does not use. -/
def keep (u : FieldUse) (f : Fields) : Fields :=
  { rd := if u.rd then f.rd else 0
    rs1 := if u.rs1 then f.rs1 else 0
    rs2 := if u.rs2 then f.rs2 else 0
    rs3 := if u.rs3 then f.rs3 else 0
    imm := if u.imm then f.imm else 0 }

/-- The command word with opcode `u.op` and the operands of `f` that are used (R81). -/
def word (u : FieldUse) (f : Fields) : Word :=
  assemble u.op (u.keep f).rd (u.keep f).rs1 (u.keep f).rs2 (u.keep f).rs3 (u.keep f).imm

/-- A word as R84 and R86 have it: its OP is `u.op`, and RSV and every field not used are 0. -/
structure Fits (u : FieldUse) (c : Word) : Prop where
  op_eq : c.extractLsb' 0 8 = u.op
  rd_eq : u.rd = false → c.extractLsb' 8 4 = 0#4
  rs1_eq : u.rs1 = false → c.extractLsb' 12 4 = 0#4
  rs2_eq : u.rs2 = false → c.extractLsb' 16 4 = 0#4
  rs3_eq : u.rs3 = false → c.extractLsb' 20 4 = 0#4
  rsv_eq : c.extractLsb' 24 8 = 0#8
  imm_eq : u.imm = false → c.extractLsb' 32 32 = 0#32

theorem fits_iff (u : FieldUse) (c : Word) : u.Fits c ↔ c &&& u.mask = joinFields u.op 0#4 0#4 0#4 0#4 0#8 0#32 := by
  have hop (x : BitVec 8) : x &&& 0xFF#8 = x := BitVec.and_allOnes
  conv_rhs => rw [← joinFields_extractLsb' c, mask, joinFields_and, joinFields_inj]
  simp only [and_fixedBits_eq_zero_iff, hop]
  exact ⟨fun ⟨h0, h1, h2, h3, h4, h5, h6⟩ => ⟨h0, h1, h2, h3, h4, h5, h6⟩,
    fun ⟨h0, h1, h2, h3, h4, h5, h6⟩ => ⟨h0, h1, h2, h3, h4, h5, h6⟩⟩

end FieldUse

/-- The row of R85's table and the entry of R84's table are the same command's. -/
structure RowHasUse (row : OpcodeRow) (u : FieldUse) : Prop where
  pattern_eq : row.pattern = joinFields u.op 0#4 0#4 0#4 0#4 0#8 0#32
  mask_eq : row.mask = u.mask
  build_keep : ∀ f, row.build (u.keep f) = row.build f
  encode_build : ∀ f, encode (row.build f) = u.word f
  wellFormed_build : ∀ f, (row.build f).wellFormed = immFits (u.keep f).imm

theorem opcodeTable_hasUse (k : Fin 16) : RowHasUse opcodeTable[k] fieldUses[k] := by
  fin_cases k <;> exact ⟨by decide, by decide, fun _ => rfl, fun _ => rfl, fun _ => rfl⟩

theorem exists_use {row : OpcodeRow} (hm : row ∈ opcodeTable) : ∃ u, RowHasUse row u := by
  obtain ⟨k, hk, rfl⟩ := List.mem_iff_getElem.1 hm
  exact ⟨_, opcodeTable_hasUse ⟨k, hk⟩⟩

theorem exists_row {u : FieldUse} (hu : u ∈ fieldUses) : ∃ row ∈ opcodeTable, RowHasUse row u := by
  obtain ⟨k, hk, rfl⟩ := List.mem_iff_getElem.1 hu
  exact ⟨_, List.getElem_mem (l := opcodeTable) hk, opcodeTable_hasUse ⟨k, hk⟩⟩

/-- Every command has its row, which builds it from its operands (R84). -/
theorem exists_build (i : Instr) : ∃ row ∈ opcodeTable, ∃ f, row.build f = i := by
  have hrow (k : Fin 16) (f : Fields) (h : opcodeTable[k].build f = i) : ∃ row ∈ opcodeTable, ∃ f, row.build f = i :=
    ⟨_, List.getElem_mem (l := opcodeTable) k.isLt, f, h⟩
  cases i with
  | add rd rs1 rs2 => exact hrow 0 ⟨rd, rs1, rs2, 0, 0⟩ rfl
  | sub rd rs1 rs2 => exact hrow 1 ⟨rd, rs1, rs2, 0, 0⟩ rfl
  | mul rd rs1 rs2 => exact hrow 2 ⟨rd, rs1, rs2, 0, 0⟩ rfl
  | div rd rs1 rs2 => exact hrow 3 ⟨rd, rs1, rs2, 0, 0⟩ rfl
  | mod rd rs1 rs2 => exact hrow 4 ⟨rd, rs1, rs2, 0, 0⟩ rfl
  | modexp rd rs1 rs2 rs3 => exact hrow 5 ⟨rd, rs1, rs2, rs3, 0⟩ rfl
  | isprime rs1 rounds => exact hrow 6 ⟨0, rs1, 0, 0, rounds⟩ rfl
  | and rd rs1 rs2 => exact hrow 7 ⟨rd, rs1, rs2, 0, 0⟩ rfl
  | or rd rs1 rs2 => exact hrow 8 ⟨rd, rs1, rs2, 0, 0⟩ rfl
  | xor rd rs1 rs2 => exact hrow 9 ⟨rd, rs1, rs2, 0, 0⟩ rfl
  | not rd rs1 => exact hrow 10 ⟨rd, rs1, 0, 0, 0⟩ rfl
  | shl rd rs1 k => exact hrow 11 ⟨rd, rs1, 0, 0, k⟩ rfl
  | shr rd rs1 k => exact hrow 12 ⟨rd, rs1, 0, 0, k⟩ rfl
  | cmp rs1 rs2 => exact hrow 13 ⟨0, rs1, rs2, 0, 0⟩ rfl
  | tst rs1 => exact hrow 14 ⟨0, rs1, 0, 0, 0⟩ rfl
  | ldi rd => exact hrow 15 ⟨rd, 0, 0, 0, 0⟩ rfl

/-! ### The round trip -/

namespace FieldUse

/-- The word written for the used operands fits the row: RSV and the other fields are written 0. -/
theorem fits_word (u : FieldUse) (f : Fields) : u.Fits (u.word f) := by
  obtain ⟨hop, hrd, hrs1, hrs2, hrs3, hrsv, himm⟩ := joinFields_inj.1 (joinFields_extractLsb' (u.word f))
  constructor
  case op_eq => exact hop
  case rsv_eq => exact hrsv
  case rd_eq => exact fun hu => hrd.trans (by simp [keep, hu])
  case rs1_eq => exact fun hu => hrs1.trans (by simp [keep, hu])
  case rs2_eq => exact fun hu => hrs2.trans (by simp [keep, hu])
  case rs3_eq => exact fun hu => hrs3.trans (by simp [keep, hu])
  case imm_eq => exact fun hu => himm.trans (by simp [keep, hu])

/-- The used operands read back, an immediate that fits its field among them (R83, R89). -/
theorem fields_word (u : FieldUse) (f : Fields) (himm : immFits (u.keep f).imm = true) : fields (u.word f) = u.keep f := by
  rw [word, fields_assemble, Nat.mod_eq_of_lt (of_decide_eq_true himm)]

/-- A word that fits the row is the word written for its own fields: no bit of it is lost (R86). -/
theorem Fits.word_fields {u : FieldUse} {c : Word} (h : u.Fits c) : u.word (fields c) = c := by
  have hreg (used : Bool) (lo : Nat) (hz : used = false → c.extractLsb' lo 4 = 0#4) :
      BitVec.ofFin (if used then regField c lo else 0) = c.extractLsb' lo 4 := by
    cases used with
    | true => rfl
    | false => exact (hz rfl).symm
  have himm : BitVec.ofNat 32 (u.keep (fields c)).imm = c.extractLsb' 32 32 := by
    cases hu : u.imm with
    | true => simp only [keep, hu, if_true, fields, BitVec.ofNat_toNat, BitVec.setWidth_eq]
    | false => simp [keep, hu, h.imm_eq hu]
  conv_rhs => rw [← joinFields_extractLsb' c]
  exact joinFields_inj.2 ⟨h.op_eq.symm, hreg _ 8 h.rd_eq, hreg _ 12 h.rs1_eq, hreg _ 16 h.rs2_eq, hreg _ 20 h.rs3_eq,
    h.rsv_eq.symm, himm⟩

theorem immFits_keep_fields (u : FieldUse) (c : Word) : immFits (u.keep (fields c)).imm = true := by
  refine decide_eq_true ?_
  cases hu : u.imm with
  | true => simpa [keep, hu, fields] using (c.extractLsb' 32 32).isLt
  | false => simp [keep, hu]

end FieldUse

/-- A word matches a row exactly when OP is its opcode and RSV and every field it does not use are 0 (R85, R86). -/
theorem RowHasUse.matchesWord_iff {row : OpcodeRow} {u : FieldUse} (hu : RowHasUse row u) (c : Word) :
    row.matchesWord c = true ↔ u.Fits c := by
  rw [OpcodeRow.matchesWord, beq_iff_eq, hu.mask_eq, hu.pattern_eq, u.fits_iff]

/-- Settles O6: the encoding fits its command's row, which then reads the same operands back. -/
theorem encodeThenDecodeGivesTheCommand : Obligations.EncodeThenDecodeGivesTheCommand := by
  intro i hwf
  obtain ⟨row, hm, f, rfl⟩ := exists_build i
  obtain ⟨u, hu⟩ := exists_use hm
  have himm : immFits (u.keep f).imm = true := (hu.wellFormed_build f).symm.trans hwf
  rw [hu.encode_build, decode_of_row row hm _ ((hu.matchesWord_iff _).2 (u.fits_word f)), u.fields_word f himm,
    hu.build_keep]

/-- Settles O7: an accepted word fits its row, so writing its fields again gives every bit of it. -/
theorem decodeThenEncodeGivesTheWord : Obligations.DecodeThenEncodeGivesTheWord := by
  intro c i h
  obtain ⟨row, hm, hc, rfl⟩ := row_of_decode c i h
  obtain ⟨u, hu⟩ := exists_use hm
  have hfits : u.Fits c := (hu.matchesWord_iff c).1 hc
  exact ⟨(hu.wellFormed_build _).trans (u.immFits_keep_fields c), (hu.encode_build _).trans hfits.word_fields⟩

/-! ### Words that are no command -/

/-- A word that matches no row is illegal (R88). -/
theorem illegal_of_no_row {c : Word} (h : ∀ row ∈ opcodeTable, ¬ row.matchesWord c = true) :
    decode c = .error (illegalReason c) := by
  rw [decode, List.find?_eq_none.2 h]

/-- Settles O8, with the two directions of `decode`. -/
theorem everyWordMatchesOneRowOrIsIllegal : Obligations.EveryWordMatchesOneRowOrIsIllegal := by
  intro c
  have hmatch (row : OpcodeRow) : c &&& row.mask = row.pattern ↔ row.matchesWord c = true := beq_iff_eq.symm
  simp only [hmatch, ne_eq]
  refine ⟨fun row hm row' hm' hc hc' => ?_, ⟨?_, ?_⟩, ⟨?_, fun h => ⟨_, illegal_of_no_row h⟩⟩⟩
  · have hfind := find_matching_row opcodeTable opcodeTable_disjoint row hm c hc
    rw [find_matching_row opcodeTable opcodeTable_disjoint row' hm' c hc'] at hfind
    rw [Option.some.inj hfind]
  · rintro ⟨i, h⟩
    obtain ⟨row, hm, hc, -⟩ := row_of_decode c i h
    exact ⟨row, hm, hc⟩
  · rintro ⟨row, hm, hc⟩
    exact ⟨_, decode_of_row row hm c hc⟩
  · rintro ⟨e, h⟩ row hm
    exact Bool.eq_false_iff.1 (no_row_of_illegal c e h row hm)

/-- The opcode of a row (R84). -/
def OpcodeRow.opcode (row : OpcodeRow) : BitVec 8 := row.pattern.extractLsb' 0 8

/-- The sixteen opcodes of R84. -/
theorem opcodeTable_opcodes : opcodeTable.map OpcodeRow.opcode =
    [0x01, 0x02, 0x03, 0x04, 0x05, 0x06, 0x07, 0x10, 0x11, 0x12, 0x13, 0x14, 0x15, 0x18, 0x19, 0x20] := by decide

theorem illegalReason_of_known {row : OpcodeRow} (hm : row ∈ opcodeTable) {c : Word} (h : row.opcode = c.extractLsb' 0 8) :
    illegalReason c = .nonzeroUnusedField :=
  if_pos (List.any_eq_true.2 ⟨row, hm, by simpa [OpcodeRow.opcode] using h⟩)

theorem illegalReason_of_reserved {c : Word} (h : ∀ row ∈ opcodeTable, row.opcode ≠ c.extractLsb' 0 8) :
    illegalReason c = .reservedOpcode :=
  if_neg (by simpa [OpcodeRow.opcode] using h)

theorem RowHasUse.opcode_eq {row : OpcodeRow} {u : FieldUse} (hu : RowHasUse row u) : row.opcode = u.op := by
  rw [OpcodeRow.opcode, hu.pattern_eq]
  exact (joinFields_inj.1 (joinFields_extractLsb' _)).1

theorem opcode_of_matches {row : OpcodeRow} (hm : row ∈ opcodeTable) {c : Word} (hc : row.matchesWord c = true) :
    row.opcode = c.extractLsb' 0 8 := by
  obtain ⟨u, hu⟩ := exists_use hm
  exact hu.opcode_eq.trans ((hu.matchesWord_iff c).1 hc).op_eq.symm

theorem row_eq_of_opcode_eq {row row' : OpcodeRow} (hm : row ∈ opcodeTable) (hm' : row' ∈ opcodeTable)
    (h : row.opcode = row'.opcode) : row = row' :=
  List.inj_on_of_nodup_map (by rw [opcodeTable_opcodes]; decide) hm hm' h

/-- An OP of no row is reserved (R87). -/
theorem illegal_of_reserved {c : Word} (h : ∀ row ∈ opcodeTable, row.opcode ≠ c.extractLsb' 0 8) :
    decode c = .error .reservedOpcode := by
  rw [illegal_of_no_row fun row hm hc => h row hm (opcode_of_matches hm hc), illegalReason_of_reserved h]

/-- A word with a row's OP that does not fit the row fits no other (R86). -/
theorem illegal_of_not_fits {row : OpcodeRow} {u : FieldUse} (hm : row ∈ opcodeTable) (hu : RowHasUse row u) {c : Word}
    (hop : c.extractLsb' 0 8 = u.op) (hfits : ¬ u.Fits c) : decode c = .error .nonzeroUnusedField := by
  have hrow : row.opcode = c.extractLsb' 0 8 := hu.opcode_eq.trans hop.symm
  have hno : ∀ row' ∈ opcodeTable, ¬ row'.matchesWord c = true := by
    intro row' hm' hc
    obtain rfl := row_eq_of_opcode_eq hm' hm ((opcode_of_matches hm' hc).trans hrow.symm)
    exact hfits ((hu.matchesWord_iff c).1 hc)
  rw [illegal_of_no_row hno, illegalReason_of_known hm hrow]

end Sys2Proof

namespace Sys2Proof.Machine

/-! ### What completes with ILLEGAL_CMD -/

/-- The engine's turn with an illegal word in flight is an error completion (R202, R207). -/
theorem step_illegal {s : State} {e : IllegalCommand} (turn : s.agenda = [] ∨ ∃ rest, s.agenda = .engine :: rest)
    (busy : s.status.busy = true) (hd : decode s.cmdr = .error e) :
    step s = .next (State.finishError .illegalCmd { s with agenda := s.agenda.tail }) := by
  obtain ⟨-, idle, -⟩ | ⟨-, -, hs⟩ | ⟨t, rest, next, -⟩ | ⟨presented, rest, next, -⟩ := step_cases s
  · simp [busy] at idle
  · simp only [hs, complete, hd]
  · simp [next] at turn
  · simp [next] at turn

/-- `step_illegal` when no event is left, as the statements about illegal words have it. -/
theorem endedInError_of_illegal {c : Word} {e : IllegalCommand} (hd : decode c = .error e) (s : State) (hc : s.cmdr = c)
    (busy : s.status.busy = true) (turn : s.agenda = []) : ∃ t, step s = .next t ∧ EndedInError .illegalCmd s t :=
  ⟨_, step_illegal (.inl turn) busy (hc ▸ hd), rfl, rfl, rfl, rfl⟩

/-- Settles O9: no opcode of R84 lies in the reserved ranges. -/
theorem reservedOpcodesAreIllegal : Obligations.ReservedOpcodesAreIllegal := by
  intro c hop
  have hd : decode c = .error .reservedOpcode := illegal_of_reserved fun row hm h => by
    have hused : c.extractLsb' 0 8 ∈ opcodeTable.map OpcodeRow.opcode := h ▸ List.mem_map_of_mem hm
    simp only [opcodeTable_opcodes, List.mem_cons, List.not_mem_nil, or_false] at hused
    bv_omega
  exact ⟨hd, endedInError_of_illegal hd⟩

/-- An entry of the table as the statement about unused fields writes it. -/
def useOfEntry : Nat × Bool × Bool × Bool × Bool × Bool → FieldUse
  | (op, rd, rs1, rs2, rs3, imm) => ⟨BitVec.ofNat 8 op, rd, rs1, rs2, rs3, imm⟩

/-- Settles O10: a word with a nonzero bit in RSV or in an unused field does not fit the row of its OP. -/
theorem nonzeroUnusedFieldsAreIllegal : Obligations.NonzeroUnusedFieldsAreIllegal := by
  intro op rd rs1 rs2 rs3 imm hentry c hop hbits
  obtain ⟨row, hm, hu⟩ := exists_row (List.mem_map_of_mem (f := useOfEntry) hentry)
  have hop' : c.extractLsb' 0 8 = BitVec.ofNat 8 op := by rw [← hop, BitVec.ofNat_toNat, BitVec.setWidth_eq]
  have hfits : ¬ (useOfEntry (op, rd, rs1, rs2, rs3, imm)).Fits c := by
    rintro ⟨-, hrd, hrs1, hrs2, hrs3, hrsv, himm⟩
    obtain h | ⟨hf, h⟩ | ⟨hf, h⟩ | ⟨hf, h⟩ | ⟨hf, h⟩ | ⟨hf, h⟩ := hbits
    · exact h hrsv
    · exact h (hrd hf)
    · exact h (hrs1 hf)
    · exact h (hrs2 hf)
    · exact h (hrs3 hf)
    · exact h (himm hf)
  have hd : decode c = .error .nonzeroUnusedField := illegal_of_not_fits hm hu hop' hfits
  exact ⟨hd, endedInError_of_illegal hd⟩

/-- Settles O5: the decoder runs on each sample word. -/
theorem specCommandWordsDecode : Obligations.SpecCommandWordsDecode := by
  unfold Obligations.SpecCommandWordsDecode
  decide +kernel

end Sys2Proof.Machine

/-! ## Proofs about construction (spec/40_construction.md)

Two rules hold for every command that writes a register: the number a register field names (`regField_eq_ofNat`), and what a
successful completion changes (`wroteRegister_finishWrite`). LDI's own fact is the word view of a zero-extended word. -/

namespace Sys2Proof

/-- A register field as the number R82 reads: the word shifted down to the field, modulo 16. -/
theorem regField_eq_ofNat (c : Word) (lo : Nat) : regField c lo = Fin.ofNat 16 (c.toNat / 2 ^ lo) := by
  simp [regField, Fin.ext_iff, BitVec.extractLsb'_toNat, Nat.shiftRight_eq_div_pow]

/-- A word whose bits under the mask of LDI's row are that row's pattern decodes as LDI (R84, R85). -/
theorem decode_ldi {c : Word} (hc : c &&& 0xFFFFFFFFFFFFF0FF#64 = 0x0000000000000020#64) :
    decode c = .ok (.ldi (Fin.ofNat 16 (c.toNat / 2 ^ 8))) := by
  rw [← regField_eq_ofNat]
  exact decode_of_row opcodeTable[15] (List.getElem_mem _) c (beq_iff_eq.2 hc)

end Sys2Proof

namespace Sys2Proof.Machine

/-- `finish_ok` with a destination writes that register and completes, and leaves the rest (R211). -/
theorem wroteRegister_finishWrite (rd : VReg) (v : Value) (s : State) : WroteRegister rd v s (s.finishWrite rd v) :=
  ⟨rfl, rfl, rfl, rfl⟩

/-- The words of a zero-extended word: the word itself at the bottom, 0 above it (R12, R100). -/
theorem word_zext4096 (a : Word) (w : Nat) : word (zext4096 a) w = if w = 0 then a else 0#64 := by
  apply BitVec.eq_of_getLsbD_eq
  intro i hi
  rw [word_getLsbD, zext4096, BitVec.getLsbD_setWidth]
  split
  · next h =>
    subst h
    simp [hi, show i < 4096 by omega]
  · next h => simp [BitVec.getLsbD_of_ge a (64 * w + i) (by omega)]

/-- LDI in flight completes with the zero-extended ARG of its snapshot in V[RD] (R100, R202). -/
theorem exec_ldi {s : State} {p : Pending} (h : s.pend = some p) (rd : VReg) :
    exec (.ldi rd) s = .next (s.finishWrite rd (zext4096 p.arg)) := by
  rw [exec, execLdi, s.srcArg_of_pend p h]

/-- Settles O39: the value is `zext4096` of the captured ARG, known word by word from `word_zext4096`. -/
theorem ldiZeroExtendsTheCapturedArg : Obligations.LdiZeroExtendsTheCapturedArg := by
  refine ⟨fun c hc => decode_ldi hc, fun s p rd hp => ?_⟩
  have hlow : word (zext4096 p.arg) 0 = p.arg := by rw [word_zext4096, if_pos rfl]
  have hhigh : ∀ w, 1 ≤ w → w < 64 → word (zext4096 p.arg) w = 0#64 := fun w hw _ => by
    rw [word_zext4096, if_neg (Nat.ne_of_gt hw)]
  exact ⟨zext4096 p.arg, hlow, hhigh, _, exec_ldi hp rd, wroteRegister_finishWrite rd _ s⟩

end Sys2Proof.Machine

/-! ## Proofs about arithmetic (spec/41_arithmetic.md)

Each engine has one rule that says which number it computes, for every pair of values; each command one rule that says how it
completes when PEND holds its operands. A statement about a command is the decoder's rule for a word with three register
fields, and these two. The laws of R119 are the numbers' own, read back through the engines' rules. -/

namespace Sys2Proof

/-- ADD, SUB, MUL, DIV and MOD share one row shape: a word whose bits under the mask are the row's pattern names its operands
in RD, RS1 and RS2 (R84, R85). -/
theorem decode_of_three_register_row {pattern : Word} {build : VReg → VReg → VReg → Instr}
    (hm : ⟨pattern, 0xFFFFFFFFFFF000FF#64, fun f => build f.rd f.rs1 f.rs2⟩ ∈ opcodeTable) (c : Word)
    (hc : c &&& 0xFFFFFFFFFFF000FF#64 = pattern) :
    decode c = .ok (build (Fin.ofNat 16 (c.toNat / 2 ^ 8)) (Fin.ofNat 16 (c.toNat / 2 ^ 12))
      (Fin.ofNat 16 (c.toNat / 2 ^ 16))) := by
  simp only [← regField_eq_ofNat]
  exact decode_of_row _ hm c (beq_iff_eq.2 hc)

end Sys2Proof

namespace Sys2Proof.Machine

set_option exponentiation.threshold 5000

/-! ### The numbers the engines compute -/

theorem engineAdd_toNat (a b : Value) : (engineAdd a b).toNat = (a.toNat + b.toNat) % 2 ^ 4096 := by
  rw [engineAdd_eq, add4096, BitVec.toNat_add]

/-- Below 0 the difference wraps around (R112). -/
theorem engineSub_toNat (a b : Value) : ((engineSub a b).toNat : Int) = ((a.toNat : Int) - b.toNat) % 2 ^ 4096 := by
  have hb := b.isLt
  rw [engineSub_eq, sub4096, BitVec.toNat_sub]
  omega

theorem engineMul_toNat (a b : Value) : (engineMul a b).toNat = a.toNat * b.toNat % 2 ^ 4096 := by
  rw [engineMul_eq, mul4096, BitVec.toNat_mul]

theorem engineDivmod_quotient_toNat (a : Value) {b : Value} (hb : b.toNat ≠ 0) :
    (engineDivmod a b).1.toNat = a.toNat / b.toNat := by
  rw [engineDivmod_eq a b ((nonzero_iff b).2 hb), divmod4096, BitVec.toNat_udiv]

theorem engineDivmod_remainder_toNat (a : Value) {b : Value} (hb : b.toNat ≠ 0) :
    (engineDivmod a b).2.toNat = a.toNat % b.toNat := by
  rw [engineDivmod_eq a b ((nonzero_iff b).2 hb), divmod4096, BitVec.toNat_umod]

theorem engineDivmod_remainder_lt (a : Value) {b : Value} (hb : b.toNat ≠ 0) :
    (engineDivmod a b).2.toNat < b.toNat := by
  rw [engineDivmod_remainder_toNat a hb]
  exact Nat.mod_lt _ (Nat.pos_of_ne_zero hb)

/-! ### How the commands complete -/

/-- `finish_error` changes four STATUS fields and nothing else the host can see (R203). -/
theorem endedInError_finishError (code : ErrCode) (s : State) : EndedInError code s (s.finishError code) :=
  ⟨rfl, rfl, rfl, rfl⟩

section InFlight

variable {s : State} {p : Pending} (hp : s.pend = some p) (rd rs1 rs2 : VReg)
include hp

theorem exec_add :
    exec (.add rd rs1 rs2) s = .next (s.finishWrite rd (engineAdd p.regs[rs1] p.regs[rs2])) := by
  rw [exec, execAdd, s.src_of_pend p hp, s.src_of_pend p hp, engineAdd_eq]

theorem exec_sub :
    exec (.sub rd rs1 rs2) s = .next (s.finishWrite rd (engineSub p.regs[rs1] p.regs[rs2])) := by
  rw [exec, execSub, s.src_of_pend p hp, s.src_of_pend p hp, engineSub_eq]

theorem exec_mul :
    exec (.mul rd rs1 rs2) s = .next (s.finishWrite rd (engineMul p.regs[rs1] p.regs[rs2])) := by
  rw [exec, execMul, s.src_of_pend p hp, s.src_of_pend p hp, engineMul_eq]

/-- The zero-divisor check lets a nonzero divisor through to the engine (R115, R117). -/
theorem exec_div_of_ne_zero (hb : p.regs[rs2].toNat ≠ 0) :
    exec (.div rd rs1 rs2) s = .next (s.finishWrite rd (engineDivmod p.regs[rs1] p.regs[rs2]).1) := by
  have hnz := (nonzero_iff _).2 hb
  rw [exec, execDiv, s.src_of_pend p hp, s.src_of_pend p hp, if_pos hnz, engineDivmod_eq _ _ hnz]

/-- The zero-divisor check stops a zero divisor (R115, R205). -/
theorem exec_div_of_eq_zero (hb : p.regs[rs2].toNat = 0) :
    exec (.div rd rs1 rs2) s = .next (s.finishError .divByZero) := by
  rw [exec, execDiv, s.src_of_pend p hp, if_neg fun hnz => (nonzero_iff _).1 hnz hb]

/-- `exec_div_of_ne_zero` with the other accumulator (R118). -/
theorem exec_mod_of_ne_zero (hb : p.regs[rs2].toNat ≠ 0) :
    exec (.mod rd rs1 rs2) s = .next (s.finishWrite rd (engineDivmod p.regs[rs1] p.regs[rs2]).2) := by
  have hnz := (nonzero_iff _).2 hb
  rw [exec, execMod, s.src_of_pend p hp, s.src_of_pend p hp, if_pos hnz, engineDivmod_eq _ _ hnz]

theorem exec_mod_of_eq_zero (hb : p.regs[rs2].toNat = 0) :
    exec (.mod rd rs1 rs2) s = .next (s.finishError .divByZero) := by
  rw [exec, execMod, s.src_of_pend p hp, if_neg fun hnz => (nonzero_iff _).1 hnz hb]

end InFlight

/-! ### The statements -/

/-- Settles O29. -/
theorem addRunsTheCarryPropagateAdder : Obligations.AddRunsTheCarryPropagateAdder :=
  ⟨decode_of_three_register_row (List.getElem_mem (l := opcodeTable) (n := 0) (by decide)),
    fun s _ rd rs1 rs2 hp =>
      ⟨⟨_, exec_add hp rd rs1 rs2, wroteRegister_finishWrite rd _ s⟩, engineAdd_toNat _ _⟩⟩

/-- Settles O30. -/
theorem subRunsTheCarryPropagateSubtractor : Obligations.SubRunsTheCarryPropagateSubtractor :=
  ⟨decode_of_three_register_row (List.getElem_mem (l := opcodeTable) (n := 1) (by decide)),
    fun s _ rd rs1 rs2 hp =>
      ⟨⟨_, exec_sub hp rd rs1 rs2, wroteRegister_finishWrite rd _ s⟩, engineSub_toNat _ _⟩⟩

/-- Settles O31. -/
theorem mulRunsTheSchoolbookMultiplier : Obligations.MulRunsTheSchoolbookMultiplier :=
  ⟨decode_of_three_register_row (List.getElem_mem (l := opcodeTable) (n := 2) (by decide)),
    fun s _ rd rs1 rs2 hp =>
      ⟨⟨_, exec_mul hp rd rs1 rs2, wroteRegister_finishWrite rd _ s⟩, engineMul_toNat _ _⟩⟩

/-- Settles O32, one case for each outcome of the zero-divisor check. -/
theorem divKeepsTheLongDivisionQuotient : Obligations.DivKeepsTheLongDivisionQuotient :=
  ⟨decode_of_three_register_row (List.getElem_mem (l := opcodeTable) (n := 3) (by decide)),
    fun s _ rd rs1 rs2 hp hb =>
      ⟨⟨_, exec_div_of_ne_zero hp rd rs1 rs2 hb, wroteRegister_finishWrite rd _ s⟩, engineDivmod_quotient_toNat _ hb⟩,
    fun s _ rd rs1 rs2 hp hb => ⟨_, exec_div_of_eq_zero hp rd rs1 rs2 hb, endedInError_finishError _ s⟩⟩

/-- Settles O33, one case for each outcome of the zero-divisor check. -/
theorem modKeepsTheLongDivisionRemainder : Obligations.ModKeepsTheLongDivisionRemainder :=
  ⟨decode_of_three_register_row (List.getElem_mem (l := opcodeTable) (n := 4) (by decide)),
    fun s _ rd rs1 rs2 hp hb =>
      ⟨⟨_, exec_mod_of_ne_zero hp rd rs1 rs2 hb, wroteRegister_finishWrite rd _ s⟩, engineDivmod_remainder_toNat _ hb,
        engineDivmod_remainder_lt _ hb⟩,
    fun s _ rd rs1 rs2 hp hb => ⟨_, exec_mod_of_eq_zero hp rd rs1 rs2 hb, endedInError_finishError _ s⟩⟩

/-- Quotient times divisor plus remainder is the dividend: it fits in 4096 bits, so neither engine loses anything (R119). -/
theorem engineAdd_engineMul_engineDivmod (a : Value) {b : Value} (hb : b.toNat ≠ 0) :
    engineAdd (engineMul (engineDivmod a b).1 b) (engineDivmod a b).2 = a := by
  apply BitVec.eq_of_toNat_eq
  rw [engineAdd_toNat, engineMul_toNat, engineDivmod_quotient_toNat a hb, engineDivmod_remainder_toNat a hb,
    Nat.mod_add_mod, Nat.div_add_mod', Nat.mod_eq_of_lt a.isLt]

/-- Every value has its additive inverse modulo 2^4096 (R111, R119). -/
theorem engineAdd_engineSub_zero (a : Value) : engineAdd a (engineSub 0#4096 a) = 0#4096 := by
  rw [engineAdd_eq, engineSub_eq, add4096, sub4096, BitVec.zero_sub, BitVec.add_right_neg]

/-- Settles O50. -/
theorem quotientAndRemainderRecombine : Obligations.QuotientAndRemainderRecombine :=
  fun a _ => ⟨fun hb => ⟨engineAdd_engineMul_engineDivmod a hb, engineDivmod_remainder_lt a hb⟩,
    engineAdd_engineSub_zero a⟩

end Sys2Proof.Machine

/-! ## Proofs about the bitwise commands and the shifts (spec/42_bitwise_shift.md)

As in the part before: the decoder's rule for each row shape, one rule for how each command completes when PEND holds its
operands, and for each shifter the number it computes, for every count. The shifters' bits follow from those numbers. -/

namespace Sys2Proof

/-- A word whose bits under the mask of NOT's row are that row's pattern decodes as NOT (R84, R85). -/
theorem decode_not {c : Word} (hc : c &&& 0xFFFFFFFFFFFF00FF#64 = 0x0000000000000013#64) :
    decode c = .ok (.not (Fin.ofNat 16 (c.toNat / 2 ^ 8)) (Fin.ofNat 16 (c.toNat / 2 ^ 12))) := by
  simp only [← regField_eq_ofNat]
  exact decode_of_row opcodeTable[10] (List.getElem_mem _) c (beq_iff_eq.2 hc)

/-- IMM is the upper half of the command word (R81, R83). -/
theorem fields_imm (c : Word) : (fields c).imm = c.toNat / 2 ^ 32 := by
  have := c.isLt
  simp only [fields, BitVec.extractLsb'_toNat, Nat.shiftRight_eq_div_pow]
  omega

/-- SHL and SHR share one row shape: a word whose bits under the mask are the row's pattern names its operands in RD and RS1
and its count in IMM (R84, R85). -/
theorem decode_of_shift_row {pattern : Word} {build : VReg → VReg → Nat → Instr}
    (hm : ⟨pattern, 0x00000000FFFF00FF#64, fun f => build f.rd f.rs1 f.imm⟩ ∈ opcodeTable) (c : Word)
    (hc : c &&& 0x00000000FFFF00FF#64 = pattern) :
    decode c = .ok (build (Fin.ofNat 16 (c.toNat / 2 ^ 8)) (Fin.ofNat 16 (c.toNat / 2 ^ 12)) (c.toNat / 2 ^ 32)) := by
  simp only [← regField_eq_ofNat, ← fields_imm]
  exact decode_of_row _ hm c (beq_iff_eq.2 hc)

end Sys2Proof

namespace Sys2Proof.Machine

set_option exponentiation.threshold 5000

/-! ### The numbers and the bits the shifters compute -/

/-- From a count of 4096 on the product is a multiple of 2^4096 (R144). -/
theorem engineShl_toNat (a : Value) (k : Nat) : (engineShl a k).toNat = a.toNat * 2 ^ k % 2 ^ 4096 := by
  rw [engineShl_eq, shl4096]
  split
  · next hk => exact (Nat.mod_eq_zero_of_dvd ((pow_dvd_pow 2 hk).mul_left _)).symm
  · rw [BitVec.toNat_shiftLeft, Nat.shiftLeft_eq]

/-- From a count of 4096 on the divisor exceeds every value (R145). -/
theorem engineShr_toNat (a : Value) (k : Nat) : (engineShr a k).toNat = a.toNat / 2 ^ k := by
  rw [engineShr_eq, shr4096]
  split
  · next hk => exact (Nat.div_eq_of_lt (a.isLt.trans_le (Nat.pow_le_pow_right two_pos hk))).symm
  · rw [BitVec.toNat_ushiftRight, Nat.shiftRight_eq_div_pow]

theorem engineShl_getLsbD (a : Value) (k i : Nat) :
    (engineShl a k).getLsbD i = (decide (i < 4096) && (decide (k ≤ i) && a.getLsbD (i - k))) := by
  rw [← BitVec.testBit_toNat, engineShl_toNat, Nat.testBit_mod_two_pow, Nat.testBit_mul_two_pow, BitVec.testBit_toNat]

theorem engineShr_getLsbD (a : Value) (k i : Nat) : (engineShr a k).getLsbD i = a.getLsbD (i + k) := by
  rw [← BitVec.testBit_toNat, engineShr_toNat, Nat.testBit_div_two_pow, BitVec.testBit_toNat]

/-- The mask of the low `n` bits. -/
theorem lowMask_getLsbD (n i : Nat) :
    (BitVec.ofNat 4096 (2 ^ n - 1)).getLsbD i = (decide (i < 4096) && decide (i < n)) := by
  rw [BitVec.getLsbD_ofNat, Nat.testBit_two_pow_sub_one]

/-! ### How the commands complete -/

section InFlight

variable {s : State} {p : Pending} (hp : s.pend = some p) (rd rs1 rs2 : VReg) (k : Nat)
include hp

theorem exec_and : exec (.and rd rs1 rs2) s = .next (s.finishWrite rd (p.regs[rs1] &&& p.regs[rs2])) := by
  rw [exec, execAnd, s.src_of_pend p hp, s.src_of_pend p hp]

theorem exec_or : exec (.or rd rs1 rs2) s = .next (s.finishWrite rd (p.regs[rs1] ||| p.regs[rs2])) := by
  rw [exec, execOr, s.src_of_pend p hp, s.src_of_pend p hp]

theorem exec_xor : exec (.xor rd rs1 rs2) s = .next (s.finishWrite rd (p.regs[rs1] ^^^ p.regs[rs2])) := by
  rw [exec, execXor, s.src_of_pend p hp, s.src_of_pend p hp]

theorem exec_not : exec (.not rd rs1) s = .next (s.finishWrite rd (~~~ p.regs[rs1])) := by
  rw [exec, execNot, s.src_of_pend p hp]

theorem exec_shl : exec (.shl rd rs1 k) s = .next (s.finishWrite rd (engineShl p.regs[rs1] k)) := by
  rw [exec, execShl, s.src_of_pend p hp, engineShl_eq]

theorem exec_shr : exec (.shr rd rs1 k) s = .next (s.finishWrite rd (engineShr p.regs[rs1] k)) := by
  rw [exec, execShr, s.src_of_pend p hp, engineShr_eq]

end InFlight

/-! ### The statements -/

/-- Settles O34: each result is known word by word from the word view of its operation on values. -/
theorem bitwiseCommandsRunWordByWord : Obligations.BitwiseCommandsRunWordByWord := by
  refine ⟨decode_of_three_register_row (List.getElem_mem (l := opcodeTable) (n := 7) (by decide)),
    decode_of_three_register_row (List.getElem_mem (l := opcodeTable) (n := 8) (by decide)),
    decode_of_three_register_row (List.getElem_mem (l := opcodeTable) (n := 9) (by decide)),
    fun c hc => decode_not hc, fun s p rd rs1 rs2 hp => ⟨?_, ?_, ?_, ?_⟩⟩
  · exact ⟨_, fun w _ => word_and _ _ w, _, exec_and hp rd rs1 rs2, wroteRegister_finishWrite rd _ s⟩
  · exact ⟨_, fun w _ => word_or _ _ w, _, exec_or hp rd rs1 rs2, wroteRegister_finishWrite rd _ s⟩
  · exact ⟨_, fun w _ => word_xor _ _ w, _, exec_xor hp rd rs1 rs2, wroteRegister_finishWrite rd _ s⟩
  · have hword : ∀ w, w < 64 → word (~~~ p.regs[rs1]) w = word p.regs[rs1] w ^^^ 0xFFFFFFFFFFFFFFFF#64 := fun w hw => by
      rw [← engineNot_eq, engineNot, word_setWords _ _ _ _ le_rfl hw, if_pos hw]
    exact ⟨_, hword, BitVec.toNat_not, _, exec_not hp rd rs1, wroteRegister_finishWrite rd _ s⟩

/-- Settles O35. -/
theorem shlRunsTheLeftShifter : Obligations.ShlRunsTheLeftShifter :=
  ⟨decode_of_shift_row (List.getElem_mem (l := opcodeTable) (n := 11) (by decide)),
    fun s _ rd rs1 k hp =>
      ⟨⟨_, exec_shl hp rd rs1 k, wroteRegister_finishWrite rd _ s⟩, engineShl_toNat _ k⟩⟩

/-- Settles O36. -/
theorem shrRunsTheRightShifter : Obligations.ShrRunsTheRightShifter :=
  ⟨decode_of_shift_row (List.getElem_mem (l := opcodeTable) (n := 12) (by decide)),
    fun s _ rd rs1 k hp =>
      ⟨⟨_, exec_shr hp rd rs1 k, wroteRegister_finishWrite rd _ s⟩, engineShr_toNat _ k⟩⟩

/-- Left then right: bit `i` survives exactly if bit `i + k` still exists (R146). The mask is empty from a count of 4096 on. -/
theorem engineShr_engineShl (a : Value) (k : Nat) :
    engineShr (engineShl a k) k = a &&& BitVec.ofNat 4096 (2 ^ (4096 - k) - 1) := by
  apply BitVec.eq_of_getLsbD_eq
  intro i hi
  rw [engineShr_getLsbD, engineShl_getLsbD, BitVec.getLsbD_and, lowMask_getLsbD, Nat.add_sub_cancel,
    decide_eq_true (Nat.le_add_left k i), decide_eq_true hi, Bool.true_and, Bool.true_and, Bool.and_comm,
    decide_eq_decide.2 Nat.lt_sub_iff_add_lt]

/-- Right then left: bit `i` survives exactly if it is not one of the low `k` (R146). -/
theorem engineShl_engineShr (a : Value) (k : Nat) :
    engineShl (engineShr a k) k = a &&& ~~~BitVec.ofNat 4096 (2 ^ k - 1) := by
  apply BitVec.eq_of_getLsbD_eq
  intro i hi
  rw [engineShl_getLsbD, engineShr_getLsbD, BitVec.getLsbD_and, BitVec.getLsbD_not, lowMask_getLsbD]
  by_cases hk : k ≤ i
  · simp only [hi, hk, Nat.not_lt.2 hk, Nat.sub_add_cancel hk, decide_true, decide_false, Bool.true_and, Bool.and_true,
      Bool.not_false]
  · simp only [hi, hk, Nat.lt_of_not_le hk, decide_true, decide_false, Bool.false_and, Bool.and_true, Bool.not_true,
      Bool.and_false]

/-- Left shifts add up: reducing modulo 2^4096 in between loses nothing (R146). -/
theorem engineShl_add (a : Value) (k k' : Nat) : engineShl (engineShl a k) k' = engineShl a (k + k') := by
  apply BitVec.eq_of_toNat_eq
  rw [engineShl_toNat, engineShl_toNat, engineShl_toNat, Nat.mod_mul_mod, mul_assoc, ← pow_add]

theorem engineShr_add (a : Value) (k k' : Nat) : engineShr (engineShr a k) k' = engineShr a (k + k') := by
  apply BitVec.eq_of_toNat_eq
  rw [engineShr_toNat, engineShr_toNat, engineShr_toNat, Nat.div_div_eq_div_mul, ← pow_add]

/-- Settles O51. -/
theorem shiftRoundTripsMaskTheValue : Obligations.ShiftRoundTripsMaskTheValue := by
  refine fun a k k' => ⟨fun _ => engineShr_engineShl a k, fun hk => ?_, engineShl_engineShr a k, engineShl_add a k k',
    engineShr_add a k k'⟩
  rw [engineShr_engineShl, Nat.sub_eq_zero_of_le hk]
  exact BitVec.and_zero

end Sys2Proof.Machine

/-! ## Proofs about comparison and test (spec/43_compare_test.md)

Both commands write no register, so they share one rule for what their completion changes (`wroteFlags_finishOk`). What is
left of each is the decoder's rule for its row, and what its engine says: the comparator gives the order of the two numbers,
the zero test finds a nonzero word. -/

namespace Sys2Proof

/-- A word whose bits under the mask of CMP's row are that row's pattern decodes as CMP (R84, R85). -/
theorem decode_cmp {c : Word} (hc : c &&& 0xFFFFFFFFFFF00FFF#64 = 0x0000000000000018#64) :
    decode c = .ok (.cmp (Fin.ofNat 16 (c.toNat / 2 ^ 12)) (Fin.ofNat 16 (c.toNat / 2 ^ 16))) := by
  simp only [← regField_eq_ofNat]
  exact decode_of_row opcodeTable[13] (List.getElem_mem _) c (beq_iff_eq.2 hc)

/-- A word whose bits under the mask of TST's row are that row's pattern decodes as TST (R84, R85). -/
theorem decode_tst {c : Word} (hc : c &&& 0xFFFFFFFFFFFF0FFF#64 = 0x0000000000000019#64) :
    decode c = .ok (.tst (Fin.ofNat 16 (c.toNat / 2 ^ 12))) := by
  rw [← regField_eq_ofNat]
  exact decode_of_row opcodeTable[14] (List.getElem_mem _) c (beq_iff_eq.2 hc)

end Sys2Proof

namespace Sys2Proof.Machine

/-- The lexicographic order of the words from the top is the order of the numbers (R160). -/
theorem engineUcmp_eq_compare (a b : Value) : engineUcmp a b = compare a.toNat b.toNat := by
  rw [engineUcmp_eq, Nat.compare_eq_ite_lt]
  rfl

theorem nonzeroLoop_iff_exists_word (a : Value) (n : Nat) : nonzeroLoop a n = true ↔ ∃ w, w < n ∧ word a w ≠ 0#64 := by
  induction n with
  | zero => simp [nonzeroLoop]
  | succ n ih => rw [nonzeroLoop, Bool.or_eq_true, bne_iff_ne, ih, Nat.exists_lt_succ_right, or_comm]

/-- `finish_ok` after a write of STATUS alone leaves every register, ARG and CMDR (R211). -/
theorem wroteFlags_finishOk (f : Status) (s : State) : WroteFlags f s { s with status := f }.finishOk :=
  ⟨rfl, rfl, rfl, rfl⟩

section InFlight

variable {s : State} {p : Pending} (hp : s.pend = some p) (rs1 rs2 : VReg)
include hp

theorem exec_cmp : exec (.cmp rs1 rs2) s = .next (s.setOrder (engineUcmp p.regs[rs1] p.regs[rs2])).finishOk := by
  rw [exec, execCmp, s.src_of_pend p hp, s.src_of_pend p hp, engineUcmp_eq]

theorem exec_tst : exec (.tst rs1) s = .next (s.setNz (engineNonzero p.regs[rs1])).finishOk := by
  rw [exec, execTst, s.src_of_pend p hp, engineNonzero_eq]

end InFlight

/-- Settles O37: the comparator's outcomes are those of `compare` on the numbers. -/
theorem cmpRunsTheWordComparator : Obligations.CmpRunsTheWordComparator := by
  refine ⟨fun c hc => decode_cmp hc, fun s p rs1 rs2 hp => ⟨?_, ?_, ?_, ?_⟩⟩
  · exact ⟨_, exec_cmp hp rs1 rs2, wroteFlags_finishOk _ s⟩
  · rw [engineUcmp_eq_compare, Nat.compare_eq_lt]
  · rw [engineUcmp_eq_compare, Nat.compare_eq_eq]
  · rw [engineUcmp_eq_compare, Nat.compare_eq_gt]

/-- Settles O38. -/
theorem tstFindsANonzeroWord : Obligations.TstFindsANonzeroWord :=
  ⟨fun _ hc => decode_tst hc, fun s _ rs1 hp =>
    ⟨⟨_, exec_tst hp rs1, wroteFlags_finishOk _ s⟩, nonzeroLoop_iff_exists_word _ 64⟩⟩

end Sys2Proof.Machine

/-! ## Proofs about the number-theoretic sequencers (spec/44_number_theory.md)

Both sequencers multiply and reduce in every turn, so that step has a name of its own (`mulMod`, and `squareMod` for a
square), a rule that ties it to the word-level engines, and a rule for the number it gives. Each loop has one rule: what the
exponentiation loop computes when nothing wraps (`modexpLoop_toNat`), how the decomposition ends (`decomposeLoop_eq`), when the
squarings pass (`squareLoop_iff`). The primality statements rest on one equation for odd `n` from 5 up
(`isprime4096_of_decomposition`). That no prime fails is Fermat's little theorem, read in `ZMod n`: where a power
`y ^ 2 ^ r` is 1, either `y` is 1 or one of its earlier squarings is -1. -/

namespace Sys2Proof

/-- A word whose bits under the mask of MODEXP's row are that row's pattern decodes as MODEXP (R84, R85). -/
theorem decode_modexp {c : Word} (hc : c &&& 0xFFFFFFFFFF0000FF#64 = 0x0000000000000006#64) :
    decode c = .ok (.modexp (Fin.ofNat 16 (c.toNat / 2 ^ 8)) (Fin.ofNat 16 (c.toNat / 2 ^ 12))
      (Fin.ofNat 16 (c.toNat / 2 ^ 16)) (Fin.ofNat 16 (c.toNat / 2 ^ 20))) := by
  simp only [← regField_eq_ofNat]
  exact decode_of_row opcodeTable[5] (List.getElem_mem _) c (beq_iff_eq.2 hc)

/-- A word whose bits under the mask of ISPRIME's row are that row's pattern decodes as ISPRIME (R84, R85). -/
theorem decode_isprime {c : Word} (hc : c &&& 0x00000000FFFF0FFF#64 = 0x0000000000000007#64) :
    decode c = .ok (.isprime (Fin.ofNat 16 (c.toNat / 2 ^ 12)) (c.toNat / 2 ^ 32)) := by
  rw [← regField_eq_ofNat, ← fields_imm]
  exact decode_of_row opcodeTable[6] (List.getElem_mem _) c (beq_iff_eq.2 hc)

end Sys2Proof

namespace Sys2Proof.Machine

set_option exponentiation.threshold 5000

/-! ### Multiply and reduce -/

/-- `divmod4096(mul4096(a, b), m).r`, the step both sequencers are made of (R170, R173). -/
def mulMod (m a b : Value) : Value := (divmod4096 (mul4096 a b) m).2

/-- `mulMod` with both factors alike. -/
def squareMod (m x : Value) : Value := mulMod m x x

theorem engineDivmod_engineMul {m : Value} (hm : m.toNat ≠ 0) (a b : Value) :
    (engineDivmod (engineMul a b) m).2 = mulMod m a b := by
  rw [engineMul_eq, engineDivmod_eq _ _ ((nonzero_iff m).2 hm), mulMod]

theorem divmod4096_remainder_toNat (a m : Value) : (divmod4096 a m).2.toNat = a.toNat % m.toNat := BitVec.toNat_umod

/-- The product is truncated before it is reduced (R172). -/
theorem mulMod_toNat (m a b : Value) : (mulMod m a b).toNat = a.toNat * b.toNat % 2 ^ 4096 % m.toNat := by
  rw [mulMod, divmod4096_remainder_toNat, mul4096, BitVec.toNat_mul]

/-- Up to half the width no product wraps, not even one with a factor of `2 ^ 2048` itself (R172). -/
theorem mulMod_toNat_of_half {m a b : Value} (ha : a.toNat ≤ 2 ^ 2048) (hb : b.toNat < 2 ^ 2048) :
    (mulMod m a b).toNat = a.toNat * b.toNat % m.toNat := by
  have hlt : a.toNat * b.toNat < 2 ^ 2048 * 2 ^ 2048 := Nat.mul_lt_mul_of_le_of_lt ha hb (by positivity)
  rw [mulMod_toNat, Nat.mod_eq_of_lt (hlt.trans_eq (pow_add 2 2048 2048).symm)]

theorem mulMod_lt {m : Value} (hm : m.toNat ≠ 0) (a b : Value) : (mulMod m a b).toNat < m.toNat := by
  rw [mulMod_toNat]
  exact Nat.mod_lt _ (Nat.pos_of_ne_zero hm)

/-- Each squaring doubles the exponent (R173 step 5d). -/
theorem squareMod_iterate_toNat {m x : Value} (hm : m.toNat ≤ 2 ^ 2048) (hx : x.toNat < m.toNat) (t : Nat) :
    ((squareMod m)^[t] x).toNat = x.toNat ^ 2 ^ t % m.toNat := by
  induction t with
  | zero => rw [Function.iterate_zero_apply, pow_zero, pow_one, Nat.mod_eq_of_lt hx]
  | succ t ih =>
    have hlt : ((squareMod m)^[t] x).toNat < 2 ^ 2048 := by
      rw [ih]
      exact (Nat.mod_lt _ (Nat.zero_lt_of_lt hx)).trans_le hm
    rw [Function.iterate_succ_apply', squareMod, mulMod_toNat_of_half hlt.le hlt, ih, ← Nat.mul_mod, ← pow_two, ← pow_mul,
      ← pow_succ]

/-! ### The low bit and the number below -/

theorem getLsbD_zero_iff_odd (v : Value) : v.getLsbD 0 = true ↔ v.toNat % 2 = 1 := by
  rw [← BitVec.testBit_toNat, Nat.testBit_zero, decide_eq_true_iff]

theorem one_toNat : (1#4096).toNat = 1 := BitVec.toNat_one (by decide)

theorem sub4096_one_toNat {n : Value} (hn : n.toNat ≠ 0) : (sub4096 n 1#4096).toNat = n.toNat - 1 := by
  have hle : 1#4096 ≤ n := Nat.one_le_iff_ne_zero.2 hn
  exact BitVec.toNat_sub_of_le hle

/-! ### The exponentiation loop -/

theorem modexpLoop_succ (m : Value) (fuel : Nat) (result b e : Value) :
    modexpLoop m (fuel + 1) result b e =
      if nonzero e then
        modexpLoop m fuel (if e.getLsbD 0 then mulMod m result b else result) (mulMod m b b) (shr4096 e 1)
      else result := rfl

/-- With the fuel of `modexp4096` the loop obeys R170 with no fuel in sight: a turn shortens the exponent. -/
theorem modexpLoop_unfold (m result b e : Value) :
    modexpLoop m 4096 result b e =
      if nonzero e then
        modexpLoop m 4096 (if e.getLsbD 0 then mulMod m result b else result) (mulMod m b b) (shr4096 e 1)
      else result := by
  have hshort : (shr4096 e 1).toNat < 2 ^ 4095 := by
    have := e.isLt
    rw [shr4096_one_toNat]
    omega
  rw [modexpLoop_fuel m 4095 1 _ _ _ hshort]
  exact modexpLoop_succ m 4095 result b e

/-- The same turn on the word-level engines. -/
theorem modexpLoop_engine {m : Value} (hm : m.toNat ≠ 0) (result b e : Value) :
    modexpLoop m 4096 result b e =
      if engineNonzero e then
        modexpLoop m 4096 (if e.getLsbD 0 then (engineDivmod (engineMul result b) m).2 else result)
          (engineDivmod (engineMul b b) m).2 (engineShr e 1)
      else result := by
  rw [engineNonzero_eq, engineDivmod_engineMul hm, engineDivmod_engineMul hm, engineShr_eq]
  exact modexpLoop_unfold m result b e

/-- One turn of square-and-multiply, as numbers. -/
theorem mul_pow_eq_turn (m result b e : Nat) :
    (if e % 2 = 1 then result * b % m else result) * (b * b % m) ^ (e / 2) % m = result * b ^ e % m := by
  have hsplit : b ^ e = b ^ (e % 2) * (b * b) ^ (e / 2) := by rw [← pow_two, ← pow_mul, ← pow_add, Nat.mod_add_div]
  rw [hsplit, ← mul_assoc]
  split
  · next hodd =>
    rw [hodd, pow_one]
    exact (Nat.mod_modEq _ _).mul ((Nat.mod_modEq _ _).pow _)
  · next heven =>
    rw [Nat.mod_two_ne_one.1 heven, pow_zero, mul_one]
    exact ((Nat.mod_modEq _ _).pow _).mul_left _

/-- Up to half the width the loop multiplies its result by the power. A result that is not reduced yet, such as the initial 1 with
modulus 1, needs a turn to be (R171, R172). -/
theorem modexpLoop_toNat {m : Value} (hm : m.toNat ≠ 0) (hhalf : m.toNat ≤ 2 ^ 2048) (fuel : Nat) {result b e : Value}
    (hfuel : e.toNat < 2 ^ fuel) (hresult : result.toNat ≤ 2 ^ 2048) (hb : b.toNat < m.toNat)
    (hreduced : e.toNat ≠ 0 ∨ result.toNat < m.toNat) :
    (modexpLoop m fuel result b e).toNat = result.toNat * b.toNat ^ e.toNat % m.toNat := by
  induction fuel generalizing result b e with
  | zero =>
    have he : e.toNat = 0 := Nat.lt_one_iff.1 hfuel
    rw [modexpLoop, he, pow_zero, mul_one, Nat.mod_eq_of_lt (hreduced.resolve_left fun h => h he)]
  | succ fuel ih =>
    by_cases he : e.toNat = 0
    · rw [modexpLoop_done m _ _ _ _ he, he, pow_zero, mul_one, Nat.mod_eq_of_lt (hreduced.resolve_left fun h => h he)]
    · have hb' : b.toNat < 2 ^ 2048 := hb.trans_le hhalf
      have hturn : (if e.getLsbD 0 then mulMod m result b else result).toNat =
          if e.toNat % 2 = 1 then result.toNat * b.toNat % m.toNat else result.toNat := by
        simp only [apply_ite BitVec.toNat, getLsbD_zero_iff_odd, mulMod_toNat_of_half hresult hb']
      have hmod : result.toNat * b.toNat % m.toNat < m.toNat := Nat.mod_lt _ (Nat.pos_of_ne_zero hm)
      rw [modexpLoop_succ, if_pos ((nonzero_iff e).2 he), ih ?_ ?_ (mulMod_lt hm b b) ?_, hturn,
        mulMod_toNat_of_half hb'.le hb', shr4096_one_toNat, mul_pow_eq_turn]
      · rw [shr4096_one_toNat]
        omega
      · rw [hturn]
        split
        · exact hmod.le.trans hhalf
        · exact hresult
      · rw [hturn, shr4096_one_toNat]
        split
        · exact .inr hmod
        · exact .inl (by omega)

/-- R172: up to half the width `modexp4096` is the power, but for exponent 0 with modulus 1. -/
theorem modexp4096_toNat {m : Value} (hm : m.toNat ≠ 0) (hhalf : m.toNat ≤ 2 ^ 2048) (b : Value) {e : Value}
    (hreduced : e.toNat ≠ 0 ∨ 1 < m.toNat) : (modexp4096 b e m).toNat = b.toNat ^ e.toNat % m.toNat := by
  have hb : (divmod4096 b m).2.toNat < m.toNat := by
    rw [divmod4096_remainder_toNat]
    exact Nat.mod_lt _ (Nat.pos_of_ne_zero hm)
  rw [modexp4096, modexpLoop_toNat hm hhalf 4096 e.isLt (one_toNat ▸ Nat.one_le_two_pow) hb (one_toNat.symm ▸ hreduced),
    one_toNat, one_mul, divmod4096_remainder_toNat, ← Nat.pow_mod]

/-! ### The decomposition -/

/-- The loop strips exactly the factors of two (R174): with `d = c * 2 ^ k` and `c` odd it ends at `c`, `k` turns later. -/
theorem decomposeLoop_eq {c : Value} (hc : c.toNat % 2 = 1) {k fuel : Nat} (hk : k < fuel) {d : Value}
    (hd : d.toNat = c.toNat * 2 ^ k) (r : Nat) : decomposeLoop fuel d r = (c, r + k) := by
  induction k generalizing fuel d r with
  | zero =>
    obtain ⟨fuel, rfl⟩ := Nat.exists_eq_succ_of_ne_zero hk.ne'
    obtain rfl : d = c := BitVec.eq_of_toNat_eq (by rw [hd, pow_zero, mul_one])
    rw [decomposeLoop, if_pos ((getLsbD_zero_iff_odd d).2 hc), add_zero]
  | succ k ih =>
    obtain ⟨fuel, rfl⟩ := Nat.exists_eq_succ_of_ne_zero (Nat.ne_zero_of_lt hk)
    rw [pow_succ, ← mul_assoc] at hd
    have heven : ¬ d.getLsbD 0 = true := by
      rw [getLsbD_zero_iff_odd, hd, Nat.mul_mod_left]
      exact Nat.zero_ne_one
    have hhalf : (shr4096 d 1).toNat = c.toNat * 2 ^ k := by rw [shr4096_one_toNat, hd, Nat.mul_div_cancel _ two_pos]
    rw [decomposeLoop, if_neg heven, ih (Nat.lt_of_succ_lt_succ hk) hhalf, Nat.succ_add_eq_add_succ]

/-- An odd `n` from 3 up has a decomposition, and its exponent fits the counter of R174. -/
theorem exists_decomposition {n : Value} (hodd : n.toNat % 2 = 1) (hn : 3 ≤ n.toNat) :
    ∃ (d : Value) (r : Nat), n.toNat - 1 = d.toNat * 2 ^ r ∧ d.toNat % 2 = 1 ∧ 1 ≤ r := by
  obtain ⟨r, m, hm, hnm⟩ := Nat.exists_eq_two_pow_mul_odd (show n.toNat - 1 ≠ 0 by omega)
  have hm' : m % 2 = 1 := Nat.odd_iff.1 hm
  have hle : m ≤ n.toNat - 1 := hnm ▸ Nat.le_mul_of_pos_left m (by positivity)
  have hd : (BitVec.ofNat 4096 m).toNat = m := by
    rw [BitVec.toNat_ofNat, Nat.mod_eq_of_lt (lt_of_le_of_lt hle (lt_of_le_of_lt (Nat.sub_le _ _) n.isLt))]
  refine ⟨BitVec.ofNat 4096 m, r, by rw [hd, hnm, mul_comm], by rw [hd, hm'], Nat.one_le_iff_ne_zero.2 ?_⟩
  rintro rfl
  omega

/-- No exponent of a decomposition reaches the width (R174). -/
theorem decomposition_exponent_lt {n d : Value} {r : Nat} (hd : n.toNat - 1 = d.toNat * 2 ^ r) (hdodd : d.toNat % 2 = 1) :
    r < 4096 := by
  have hle : 2 ^ r ≤ n.toNat - 1 := hd ▸ Nat.le_mul_of_pos_left _ (by omega)
  exact (Nat.pow_lt_pow_iff_right (by decide)).1 (lt_of_le_of_lt hle (lt_of_le_of_lt (Nat.sub_le _ _) n.isLt))

/-- The decomposition loop of `isprime4096` finds whatever decomposition there is. -/
theorem decomposeLoop_sub_one {n d : Value} {r : Nat} (hn : n.toNat ≠ 0) (hd : n.toNat - 1 = d.toNat * 2 ^ r)
    (hdodd : d.toNat % 2 = 1) : decomposeLoop 4096 (sub4096 n 1#4096) 0 = (d, r) := by
  rw [decomposeLoop_eq hdodd (decomposition_exponent_lt hd hdodd) ((sub4096_one_toNat hn).trans hd), zero_add]

/-! ### One witness -/

theorem ucmp_eq_iff (a b : Value) : ucmp a b = .eq ↔ a = b := by
  rw [← engineUcmp_eq, engineUcmp_eq_compare, Nat.compare_eq_eq, BitVec.toNat_inj]

theorem squareLoop_succ (n nm1 : Value) (turns : Nat) (x : Value) :
    squareLoop n nm1 (turns + 1) x =
      if ucmp (squareMod n x) nm1 = .eq then true else squareLoop n nm1 turns (squareMod n x) := rfl

/-- Step 5d passes when one of its squarings is `n - 1`. -/
theorem squareLoop_iff (n nm1 : Value) (turns : Nat) (x : Value) :
    squareLoop n nm1 turns x = true ↔ ∃ t, t < turns ∧ (squareMod n)^[t + 1] x = nm1 := by
  induction turns generalizing x with
  | zero => simp [squareLoop]
  | succ turns ih =>
    rw [squareLoop_succ, Nat.exists_lt_succ_left]
    by_cases hx : squareMod n x = nm1
    · rw [if_pos ((ucmp_eq_iff _ _).2 hx)]
      exact iff_of_true rfl (.inl hx)
    · rw [if_neg (mt (ucmp_eq_iff _ _).1 hx), ih]
      exact (or_iff_right hx).symm

/-- Steps 5a to 5e: a witness passes by the guard, because its power is 1, or because the power or one of its squarings is
`n - 1`. -/
theorem witnessPasses_iff (n nm1 d : Value) (r : Nat) (a : Value) :
    witnessPasses n nm1 d r a = true ↔
      nonzero (divmod4096 a n).2 = false ∨ modexp4096 a d n = 1#4096 ∨
        ∃ t, t ≤ r - 1 ∧ (squareMod n)^[t] (modexp4096 a d n) = nm1 := by
  simp only [← Nat.lt_succ_iff, Nat.succ_eq_add_one, Nat.exists_lt_succ_left, ← squareLoop_iff, Function.iterate_zero_apply]
  rw [witnessPasses]
  cases nonzero (divmod4096 a n).2 with
  | false => simp
  | true => simp [ucmp_eq_iff, or_assoc]

theorem witnesses_prime {a : Nat} (ha : a ∈ Config.witnesses) : a.Prime := by
  simp only [Config.witnesses, List.mem_cons, List.not_mem_nil, or_false] at ha
  rcases ha with rfl | rfl | rfl | rfl | rfl <;> norm_num

theorem witnesses_toNat {a : Nat} (ha : a ∈ Config.witnesses) : (BitVec.ofNat 4096 a).toNat = a := by
  simp only [Config.witnesses, List.mem_cons, List.not_mem_nil, or_false] at ha
  rcases ha with rfl | rfl | rfl | rfl | rfl <;> decide +kernel

/-! ### The primality sequencer -/

theorem isprime4096_of_le_one {n : Value} (hn : n.toNat ≤ 1) (rounds : Nat) : isprime4096 n rounds = false := if_pos hn

theorem isprime4096_of_two_or_three {n : Value} (hn : n.toNat = 2 ∨ n.toNat = 3) (rounds : Nat) :
    isprime4096 n rounds = true := by
  rw [isprime4096, if_neg (by omega), if_pos hn]

theorem isprime4096_of_even {n : Value} (hn : 2 < n.toNat) (heven : n.toNat % 2 = 0) (rounds : Nat) :
    isprime4096 n rounds = false := by
  have hlow : n.getLsbD 0 = false := by
    rw [← Bool.not_eq_true, getLsbD_zero_iff_odd]
    omega
  rw [isprime4096, if_neg (by omega), if_neg (by omega), hlow]
  rfl

/-- Steps 4 to 6, with the decomposition in hand. -/
theorem isprime4096_of_decomposition {n d : Value} {r : Nat} (hn : 5 ≤ n.toNat) (hodd : n.toNat % 2 = 1)
    (hd : n.toNat - 1 = d.toNat * 2 ^ r) (hdodd : d.toNat % 2 = 1) (rounds : Nat) :
    isprime4096 n rounds =
      (Config.witnesses.take rounds).all fun a => witnessPasses n (sub4096 n 1#4096) d r (BitVec.ofNat 4096 a) := by
  rw [isprime4096, if_neg (by omega), if_neg (by omega), (getLsbD_zero_iff_odd n).2 hodd]
  simp only [decomposeLoop_sub_one (by omega) hd hdodd, Bool.not_true, Bool.false_eq_true, if_false]

/-! ### No prime fails a witness -/

/-- Without zero divisors 1 has no square root but 1 and -1. -/
theorem eq_one_or_sq_pow_eq_neg_one {R : Type*} [Ring R] [NoZeroDivisors R] {y : R} {r : Nat} (h : y ^ 2 ^ r = 1) :
    y = 1 ∨ ∃ t, t < r ∧ y ^ 2 ^ t = -1 := by
  induction r with
  | zero => exact .inl (by rwa [pow_zero, pow_one] at h)
  | succ r ih =>
    rw [pow_succ, pow_mul, sq_eq_one_iff] at h
    rcases h with h | h
    · exact (ih h).imp_right fun ⟨t, ht, hy⟩ => ⟨t, ht.trans (Nat.lt_succ_self r), hy⟩
    · exact .inr ⟨r, Nat.lt_succ_self r, h⟩

/-- Two reduced values that agree modulo `m` are one value. -/
theorem eq_of_natCast_eq {m : Nat} {a b : Value} (ha : a.toNat < m) (hb : b.toNat < m)
    (h : (a.toNat : ZMod m) = (b.toNat : ZMod m)) : a = b := by
  rw [ZMod.natCast_eq_natCast_iff', Nat.mod_eq_of_lt ha, Nat.mod_eq_of_lt hb] at h
  exact BitVec.eq_of_toNat_eq h

/-- A prime up to half the width passes every witness: by the guard, or by Fermat's little theorem. -/
theorem witnessPasses_of_prime {n d : Value} {r : Nat} (hp : n.toNat.Prime) (hhalf : n.toNat ≤ 2 ^ 2048)
    (hd : n.toNat - 1 = d.toNat * 2 ^ r) (a : Value) : witnessPasses n (sub4096 n 1#4096) d r a = true := by
  rw [witnessPasses_iff]
  by_cases hguard : nonzero (divmod4096 a n).2 = false
  · exact .inl hguard
  have := Fact.mk hp
  have hx : (modexp4096 a d n).toNat = a.toNat ^ d.toNat % n.toNat := modexp4096_toNat hp.ne_zero hhalf a (.inr hp.one_lt)
  have hxlt : (modexp4096 a d n).toNat < n.toNat := hx ▸ Nat.mod_lt _ hp.pos
  have hnm1 : (sub4096 n 1#4096).toNat = n.toNat - 1 := sub4096_one_toNat hp.ne_zero
  have ha : (a.toNat : ZMod n.toNat) ≠ 0 := by
    rwa [ne_eq, ZMod.natCast_eq_zero_iff, Nat.dvd_iff_mod_eq_zero, ← divmod4096_remainder_toNat, ← nonzero_eq_false_iff]
  have hfermat : ((modexp4096 a d n).toNat : ZMod n.toNat) ^ 2 ^ r = 1 := by
    rw [hx, ZMod.natCast_mod, Nat.cast_pow, ← pow_mul, ← hd, ZMod.pow_card_sub_one_eq_one ha]
  rcases eq_one_or_sq_pow_eq_neg_one hfermat with h | ⟨t, ht, h⟩
  · exact .inr (.inl (eq_of_natCast_eq hxlt (one_toNat.trans_lt hp.one_lt) (by rw [h, one_toNat, Nat.cast_one])))
  · have hsq := squareMod_iterate_toNat hhalf hxlt t
    refine .inr (.inr ⟨t, Nat.le_sub_one_of_lt ht,
      eq_of_natCast_eq (hsq ▸ Nat.mod_lt _ hp.pos) (hnm1 ▸ Nat.sub_one_lt hp.ne_zero) ?_⟩)
    rw [hsq, ZMod.natCast_mod, Nat.cast_pow, h, hnm1, Nat.cast_pred hp.pos, ZMod.natCast_self, zero_sub]

/-! ### How the commands complete -/

section InFlight

variable {s : State} {p : Pending} (hp : s.pend = some p) (rd rs1 rs2 rs3 : VReg)
include hp

theorem exec_modexp_of_ne_zero (hm : p.regs[rs3].toNat ≠ 0) :
    exec (.modexp rd rs1 rs2 rs3) s =
      .next (s.finishWrite rd (modexp4096 p.regs[rs1] p.regs[rs2] p.regs[rs3])) := by
  rw [exec, execModexp, s.src_of_pend p hp, s.src_of_pend p hp, s.src_of_pend p hp, if_pos ((nonzero_iff _).2 hm)]

/-- The zero-modulus check stops a zero modulus (R171, R206). -/
theorem exec_modexp_of_eq_zero (hm : p.regs[rs3].toNat = 0) :
    exec (.modexp rd rs1 rs2 rs3) s = .next (s.finishError .zeroModulus) := by
  rw [exec, execModexp, s.src_of_pend p hp, if_neg fun hnz => (nonzero_iff _).1 hnz hm]

theorem exec_isprime_of_le {rounds : Nat} (hr : rounds ≤ 5) :
    exec (.isprime rs1 rounds) s = .next (s.setPrime (isprime4096 p.regs[rs1] rounds)).finishOk := by
  rw [exec, execIsprime, s.src_of_pend p hp, Config.maxRounds, if_neg (Nat.not_lt.2 hr)]

end InFlight

/-- The round count is checked before any operand is read (R208). -/
theorem exec_isprime_of_gt (s : State) (rs1 : VReg) {rounds : Nat} (hr : 5 < rounds) :
    exec (.isprime rs1 rounds) s = .next (s.finishError .badRounds) := if_pos hr

/-! ### The statements -/

/-- Settles O40: `L` is the model's loop with the fuel `modexp4096` gives it, which is always enough. -/
theorem modexpRunsSquareAndMultiply : Obligations.ModexpRunsSquareAndMultiply := by
  refine ⟨fun c hc => decode_modexp hc, fun s p rd rs1 rs2 rs3 hp hm => ?_, fun s p rd rs1 rs2 rs3 hp hm => ?_⟩
  · rw [engineNonzero_eq, nonzero_iff] at hm
    refine ⟨modexpLoop p.regs[rs3] 4096, modexpLoop_engine hm, _, exec_modexp_of_ne_zero hp rd rs1 rs2 rs3 hm, ?_⟩
    rw [engineDivmod_eq _ _ ((nonzero_iff _).2 hm)]
    exact wroteRegister_finishWrite rd _ s
  · rw [engineNonzero_eq, nonzero_eq_false_iff] at hm
    exact ⟨_, exec_modexp_of_eq_zero hp rd rs1 rs2 rs3 hm, endedInError_finishError _ s⟩

/-- Settles O52: up to half the width nothing wraps; the example of R172 is evaluated. -/
theorem modexpIsExactUpToHalfWidth : Obligations.ModexpIsExactUpToHalfWidth :=
  ⟨fun b _ _ hm hhalf hreduced => modexp4096_toNat hm hhalf b hreduced, by decide +kernel, by decide +kernel⟩

/-- Settles O53. -/
theorem decompositionIsExact : Obligations.DecompositionIsExact := by
  intro n hodd hn
  have hn0 : n.toNat ≠ 0 := by omega
  obtain ⟨d, r, hd, hdodd, hr⟩ := exists_decomposition hodd (by omega)
  rw [engineSub_eq, decomposeLoop_sub_one hn0 hd hdodd, engineDivmod_engineMul hn0]
  refine ⟨⟨hd, hdodd, hr, Nat.le_of_lt_succ (decomposition_exponent_lt hd hdodd)⟩, BitVec.eq_of_toNat_eq ?_, fun h => ?_⟩
  · rw [mulMod_toNat_of_half, one_toNat, Nat.mod_eq_of_lt (by omega)] <;> decide +kernel
  · have := congrArg BitVec.toNat h
    rw [sub4096_one_toNat hn0, one_toNat] at this
    omega

/-- Settles O56: 2 and 3 are answered at step 2, and every other prime is odd and passes every witness. -/
theorem primesAreNeverReportedComposite : Obligations.PrimesAreNeverReportedComposite := by
  intro n rounds hp hhalf _
  by_cases hsmall : n.toNat = 2 ∨ n.toNat = 3
  · exact isprime4096_of_two_or_three hsmall rounds
  · have hodd : n.toNat % 2 = 1 := hp.eq_two_or_odd.resolve_left fun h => hsmall (.inl h)
    have h5 : 5 ≤ n.toNat := by
      have := hp.two_le
      omega
    obtain ⟨d, r, hd, hdodd, -⟩ := exists_decomposition hodd (by omega)
    rw [isprime4096_of_decomposition h5 hodd hd hdodd, List.all_eq_true]
    exact fun a _ => witnessPasses_of_prime hp hhalf hd _

/-- Settles O54: the witnesses are primes, so `n` divides one only by being it; and 5, 7 and 11 are primes, which O56 covers. -/
theorem witnessGuardAppliesOnlyToItself : Obligations.WitnessGuardAppliesOnlyToItself := by
  refine ⟨fun n a _ hn ha => ?_, fun rounds hr => ?_⟩
  · rw [← BitVec.toNat_inj, engineDivmod_remainder_toNat _ (by omega), witnesses_toNat ha, BitVec.toNat_zero,
      ← Nat.dvd_iff_mod_eq_zero, Nat.dvd_prime (witnesses_prime ha)]
    exact or_iff_right (by omega)
  · have hprime : ∀ n : Value, n.toNat.Prime → n.toNat ≤ 11 → isprime4096 n rounds = true := fun n hp hle =>
      primesAreNeverReportedComposite n rounds hp (hle.trans (by norm_num)) hr
    exact ⟨hprime _ (by norm_num) (by norm_num), hprime _ (by norm_num) (by norm_num), hprime _ (by norm_num) (by norm_num)⟩

/-- The first elements of a list, by their positions. -/
theorem forall_mem_take_iff {α : Type*} {l : List α} {n : Nat} {P : α → Prop} :
    (∀ a ∈ l.take n, P a) ↔ ∀ (k : Nat) (a : α), k < n → l[k]? = some a → P a := by
  simp only [List.mem_iff_getElem?, List.getElem?_take, Option.ite_none_right_eq_some, forall_exists_index, and_imp]
  exact forall_comm

/-- Settles O55: what a witness needs to pass is `witnessPasses_iff`, with each operation on its engine. -/
theorem isprimeRunsMillerRabin : Obligations.IsprimeRunsMillerRabin := by
  refine ⟨fun n rounds => ⟨fun h => isprime4096_of_le_one h rounds, fun h => isprime4096_of_two_or_three h rounds,
    fun h heven => isprime4096_of_even h heven rounds⟩, fun n d r rounds hn hodd hd hdodd => ?_⟩
  have hn0 : n.toNat ≠ 0 := by omega
  have hsquare : (fun x : Value => (engineDivmod (engineMul x x) n).2) = squareMod n :=
    funext fun x => engineDivmod_engineMul hn0 x x
  rw [isprime4096_of_decomposition hn hodd hd hdodd, List.all_eq_true, hsquare, engineSub_eq]
  simp only [witnessPasses_iff, engineNonzero_eq, engineDivmod_eq _ _ ((nonzero_iff n).2 hn0)]
  exact forall_mem_take_iff

/-- Settles O41. -/
theorem isprimeWritesOnlyPrime : Obligations.IsprimeWritesOnlyPrime :=
  ⟨fun _ hc => decode_isprime hc,
    fun s _ rs1 _ hp hr => ⟨_, exec_isprime_of_le hp rs1 hr, wroteFlags_finishOk _ s⟩,
    fun s rs1 _ hr => ⟨_, exec_isprime_of_gt s rs1 hr, endedInError_finishError _ s⟩⟩

/-- Settles O57 by running the sequencer (PRM-24). -/
theorem knownCompositePassesEveryWitness : Obligations.KnownCompositePassesEveryWitness :=
  ⟨by norm_num, by decide +kernel⟩

end Sys2Proof.Machine

/-! ## Proofs about exceptions and the lifecycle of a command (spec/60_exceptions.md)

With a command in flight the engine's turn is one `Ending`, and `operandError` says which error it is. A host transaction keeps
the command in flight. The statements about every step are case splits on `StepEffect`. -/

namespace Sys2Proof.Machine

/-! ### The engine's turn -/

/-- The completion step performs the decoded command (R202). -/
theorem complete_of_decoded {s : State} {i : Instr} (hd : decode s.cmdr = .ok i) : complete s = exec i s := by
  simp only [complete, hd]

section EngineTurn

variable {s : State} (turn : s.agenda = [] ∨ ∃ rest, s.agenda = .engine :: rest)
include turn

theorem step_of_turn : step s = engineTurn { s with agenda := s.agenda.tail } := by
  obtain ⟨-, idle, hs⟩ | ⟨-, busy, hs⟩ | ⟨t, rest, next, -⟩ | ⟨presented, rest, next, -⟩ := step_cases s
  · simp [hs, engineTurn, idle]
  · simp [hs, engineTurn, busy]
  · simp [next] at turn
  · simp [next] at turn

/-- With no command in flight the engine's turn is used up and nothing else changes (R221). -/
theorem step_of_turn_of_idle (idle : s.status.busy = false) : step s = .next { s with agenda := s.agenda.tail } := by
  rw [step_of_turn turn, engineTurn, idle, if_neg Bool.false_ne_true]

/-- With a command in flight the engine's turn is its completion (R202). -/
theorem step_of_turn_of_busy (busy : s.status.busy = true) : step s = complete { s with agenda := s.agenda.tail } := by
  rw [step_of_turn turn, engineTurn, busy, if_pos rfl]

/-- The engine's turn runs the decoded command (R202). -/
theorem step_of_decoded (busy : s.status.busy = true) {i : Instr} (hd : decode s.cmdr = .ok i) :
    step s = exec i { s with agenda := s.agenda.tail } := by
  rw [step_of_turn_of_busy turn busy, complete_of_decoded (s := { s with agenda := s.agenda.tail }) hd]

/-- Whatever the word in flight, the engine's turn ends it (R202, R207). -/
theorem step_ending_of_turn (busy : s.status.busy = true) :
    ∃ e : Ending, step s = .next (e.finish { s with agenda := s.agenda.tail }) := by
  obtain ⟨e, he⟩ := complete_ending s.cmdr s.snapshot
  exact ⟨e, (step_of_turn_of_busy turn busy).trans (he _ rfl rfl)⟩

end EngineTurn

/-- Settles O11. -/
theorem engineTurnRunsTheDecodedCommand : Obligations.EngineTurnRunsTheDecodedCommand :=
  fun _ turn => ⟨fun _ busy hd => step_of_decoded turn busy hd, step_of_turn_of_idle turn⟩

/-- Placing the bits of a command word places that word (log entry 1). -/
theorem withFetchWord_toNat (s : State) (c : Word) : s.withFetchWord 64 c.toNat = s.placeCommand c := by
  rw [State.withFetchWord, Nat.mod_eq_of_lt c.isLt, BitVec.ofNat_toNat, BitVec.setWidth_eq]

/-- Settles O12: the placed word is in flight and the engine has the turn. -/
theorem placedCommandWordRunsNext : Obligations.PlacedCommandWordRunsNext := by
  intro s c i hd
  rw [withFetchWord_toNat]
  exact step_of_decoded (s := s.placeCommand c) (.inr ⟨s.agenda, rfl⟩) rfl hd

/-- Settles O14. -/
theorem illegalCommandCompletesWithIllegalCmd : Obligations.IllegalCommandCompletesWithIllegalCmd := by
  intro s busy turn hrows
  have hd := illegal_of_no_row fun row hm hc => hrows row hm (beq_iff_eq.1 hc)
  exact ⟨_, step_illegal turn busy hd, rfl, rfl, rfl, rfl⟩

/-- Settles O45: an ending with ERR = 1 is an error ending. -/
theorem errorCompletionsChangeOnlyFourStatusFields : Obligations.ErrorCompletionsChangeOnlyFourStatusFields := by
  intro s t busy turn hstep herr
  obtain ⟨e, he⟩ := step_ending_of_turn turn busy
  rw [he] at hstep
  cases hstep
  obtain ⟨code, rfl⟩ := (e.finish_err_iff _).1 herr
  exact ⟨rfl, rfl, rfl, rfl⟩

/-! ### What every completion leaves and sets -/

namespace Ending

@[simp] theorem finish_berr (e : Ending) (s : State) : (e.finish s).status.berr = s.status.berr := by cases e <;> rfl
@[simp] theorem finish_received (e : Ending) (s : State) : (e.finish s).received = s.received := by cases e <;> rfl
@[simp] theorem finish_draws (e : Ending) (s : State) : (e.finish s).draws = s.draws := by cases e <;> rfl

end Ending

/-- Settles O44, by the ending the command has. -/
theorem completionFrame : Obligations.CompletionFrame := by
  intro i s t hexec
  obtain ⟨e, he, rfl⟩ := ending_of_exec hexec
  exact ⟨e.finish_arg s, e.finish_cmdr s, e.finish_berr s, e.finish_agenda s, e.finish_received s, e.finish_draws s,
    e.finish_pend s, e.finish_done s, e.finish_busy s, Ending.finish_err_iff_errcode he s⟩

/-! ### Which error a command takes -/

/-- The error code a command completes with on the operands of `p` (R205, R206, R208). -/
def operandError (i : Instr) (p : Pending) : ErrCode :=
  match i with
  | .div _ _ rs2 => if nonzero p.regs[rs2] then .none else .divByZero
  | .mod _ _ rs2 => if nonzero p.regs[rs2] then .none else .divByZero
  | .modexp _ _ _ rs3 => if nonzero p.regs[rs3] then .none else .zeroModulus
  | .isprime _ rounds => if Config.maxRounds < rounds then .badRounds else .none
  | _ => .none

/-- The code a check reports is that of the state it chose. -/
theorem errcode_of_check {check : Prop} [Decidable check] {pass fail t : State}
    (h : (if check then .next pass else .next fail) = (.next t : Host.Outcome State Fault Refusal)) :
    t.status.errcode = if check then pass.status.errcode else fail.status.errcode := by
  by_cases hc : check
  · rw [if_pos hc] at h ⊢
    rw [Host.Outcome.next.inj h]
  · rw [if_neg hc] at h ⊢
    rw [Host.Outcome.next.inj h]

/-- `operandError` is the code that `exec` reports. -/
theorem exec_errcode {i : Instr} {s t : State} (hexec : exec i s = .next t) :
    t.status.errcode = operandError i s.snapshot := by
  cases i with
  | div | mod | modexp | isprime => exact errcode_of_check hexec
  | add | sub | mul | and | or | xor | not | shl | shr | cmp | tst | ldi =>
    cases hexec
    rfl

theorem operandError_ne_illegalCmd (i : Instr) (p : Pending) : operandError i p ≠ .illegalCmd := by
  cases i <;> simp [operandError, ite_eq_iff]

theorem operandError_eq_badRounds_iff (i : Instr) (p : Pending) :
    operandError i p = .badRounds ↔ ∃ rs1 rounds, i = .isprime rs1 rounds ∧ Config.maxRounds < rounds := by
  cases i <;> simp [operandError, ite_eq_iff]

theorem operandError_eq_divByZero_iff (i : Instr) (p : Pending) :
    operandError i p = .divByZero ↔
      ∃ rd rs1 rs2, (i = .div rd rs1 rs2 ∨ i = .mod rd rs1 rs2) ∧ nonzero p.regs[rs2] = false := by
  cases i <;> simp [operandError, ite_eq_iff]

theorem operandError_eq_zeroModulus_iff (i : Instr) (p : Pending) :
    operandError i p = .zeroModulus ↔
      ∃ rd rs1 rs2 rs3, i = .modexp rd rs1 rs2 rs3 ∧ nonzero p.regs[rs3] = false := by
  cases i <;> simp [operandError, ite_eq_iff]

/-- Settles O46: an illegal word has the one code, and a decoded command has the code of `operandError`. -/
theorem errorCodesNameTheirCauses : Obligations.ErrorCodesNameTheirCauses := by
  intro s t p busy hagenda hp hstep
  cases hd : decode s.cmdr with
  | error reason =>
    rw [step_illegal (.inl hagenda) busy hd] at hstep
    cases hstep
    simp
  | ok i =>
    rw [step_of_decoded (.inl hagenda) busy hd] at hstep
    have hcode : t.status.errcode = operandError i p := by
      rw [exec_errcode hstep]
      simp only [State.snapshot, hp, Option.getD_some]
    obtain ⟨e, he, rfl⟩ := ending_of_exec hstep
    refine ⟨?_, ?_, ?_, ?_, Ending.finish_err_iff_errcode he _⟩ <;> rw [hcode]
    · simp [operandError_ne_illegalCmd]
    · simp [operandError_eq_badRounds_iff, Config.maxRounds]
    · simp [operandError_eq_divByZero_iff, engineNonzero_eq]
    · simp [operandError_eq_zeroModulus_iff, engineNonzero_eq]

/-! ### Acceptance and reset -/

/-- A CMD write while BUSY = 0 is accepted, whatever the word (R201). -/
theorem step_accept {s : State} {c : Word} {rest : List Event} (busy : s.status.busy = false)
    (next : s.agenda = .host (.write 0x0008#16 c) :: rest) : step s = .next (State.accept c { s with agenda := rest }) := by
  rw [step_write next, portWrite_cmd_of_idle (s := { s with agenda := rest }) c busy]

/-- Settles O13: a CMD write while BUSY = 1 is an ignored write (R58). -/
theorem commandWriteIsAcceptedWhenIdle : Obligations.CommandWriteIsAcceptedWhenIdle := by
  intro s c rest next
  cases busy : s.status.busy with
  | true => exact busyWritesOnlySetBerr.1 s _ c rest busy next (.inl rfl)
  | false => exact step_accept busy next

/-- With `rst` next, the step is the reset (R230). -/
theorem step_reset {s : State} {presented : Option Transaction} {rest : List Event}
    (next : s.agenda = .reset presented :: rest) :
    step s = .next (State.hardReset presented { s with agenda := rest }) := by
  simp only [step, nextEvent, next]

@[simp] theorem State.hardReset_status (presented : Option Transaction) (s : State) :
    (s.hardReset presented).status = Status.reset := by
  rcases presented with _ | (_ | _) <;> rfl

@[simp] theorem State.hardReset_agenda (presented : Option Transaction) (s : State) :
    (s.hardReset presented).agenda = s.agenda := by
  rcases presented with _ | (_ | _) <;> rfl

/-! ### BUSY -/

/-- An acceptance alone raises BUSY (R200). -/
theorem StepEffect.busy_raised {s t : State} (h : StepEffect s t) (idle : s.status.busy = false)
    (busy : t.status.busy = true) : ∃ c rest, s.agenda = .host (.write 0x0008#16 c) :: rest := by
  cases h with
  | accepted c rest next _ => exact ⟨c, rest, next⟩
  | illegal | completed | reset => simp [Status.reset] at busy
  | idle | read | writeWithoutEffect | writeIgnored | argWritten | wordWritten => simp [idle] at busy

/-- A completion and reset alone lower BUSY (R200). -/
theorem StepEffect.busy_lowered {s t : State} (h : StepEffect s t) (busy : s.status.busy = true)
    (idle : t.status.busy = false) :
    s.agenda = [] ∨ (∃ rest, s.agenda = .engine :: rest) ∨ ∃ presented rest, s.agenda = .reset presented :: rest := by
  cases h with
  | illegal turn | completed turn => exact turn.imp_right .inl
  | reset presented rest next => exact .inr (.inr ⟨presented, rest, next⟩)
  | idle | read | writeWithoutEffect | writeIgnored | accepted | argWritten | wordWritten => simp [busy] at idle

/-- Whatever BUSY was, it is 0 after the engine's turn (R200). -/
theorem idle_of_turn {s t : State} (turn : s.agenda = [] ∨ ∃ rest, s.agenda = .engine :: rest) (hstep : step s = .next t) :
    t.status.busy = false := by
  cases busy : s.status.busy with
  | true =>
    obtain ⟨e, he⟩ := step_ending_of_turn turn busy
    rw [he] at hstep
    cases hstep
    exact e.finish_busy _
  | false =>
    rw [step_of_turn_of_idle turn busy] at hstep
    cases hstep
    exact busy

/-- Settles O15: each change of BUSY has its event by `StepEffect`, and each event makes its change. -/
theorem busyChangesOnlyByAcceptanceCompletionOrReset : Obligations.BusyChangesOnlyByAcceptanceCompletionOrReset := by
  intro s t hstep
  have heffect := stepEffect_of_step hstep
  refine ⟨⟨fun ⟨idle, busy⟩ => ⟨idle, heffect.busy_raised idle busy⟩, fun ⟨idle, c, rest, next⟩ => ⟨idle, ?_⟩⟩,
    fun ⟨busy, idle⟩ => ⟨busy, heffect.busy_lowered busy idle⟩, fun ⟨busy, hevent⟩ => ⟨busy, ?_⟩⟩
  · rw [step_accept idle next] at hstep
    cases hstep
    rfl
  · obtain turn | turn | ⟨presented, rest, next⟩ := hevent
    · exact idle_of_turn (.inl turn) hstep
    · exact idle_of_turn (.inr turn) hstep
    · rw [step_reset next] at hstep
      cases hstep
      simp [Status.reset]

/-! ### BERR, ERR and ERRCODE -/

/-- Settles O20: the writes ignored while BUSY = 1 alone raise BERR. -/
theorem berrIsClearedOnlyByAcceptanceOrReset : Obligations.BerrIsClearedOnlyByAcceptanceOrReset := by
  intro s t hstep
  have heffect := stepEffect_of_step hstep
  refine ⟨fun raised cleared => (heffect.berr_kept raised).resolve_left (by simp [cleared]), fun clear raised => ?_⟩
  cases heffect with
  | writeIgnored off d rest next busy => exact ⟨busy, off, d, rest, next⟩
  | idle | illegal | completed | read | writeWithoutEffect | accepted | argWritten | wordWritten | reset =>
    simp [clear, Status.reset] at raised

/-- In a consistent state a reported error belongs to a command that has completed (R25, R56). -/
theorem State.Consistent.idle_of_err {s : State} (h : s.Consistent) (herr : s.status.err = true) :
    s.status.busy = false := by
  by_contra hb
  have hdone := h.busy_not_done (Bool.eq_true_of_not_eq_false hb)
  simp [h.err_done herr] at hdone

/-- While BUSY = 0, only an acceptance and reset touch ERR and ERRCODE (R214). -/
theorem StepEffect.error_kept_of_idle {s t : State} (h : StepEffect s t) (idle : s.status.busy = false) :
    (t.status.err = s.status.err ∧ t.status.errcode = s.status.errcode) ∨
      (∃ c rest, s.agenda = .host (.write 0x0008#16 c) :: rest) ∨
      ∃ presented rest, s.agenda = .reset presented :: rest := by
  cases h with
  | accepted c rest next _ => exact .inr (.inl ⟨c, rest, next⟩)
  | reset presented rest next => exact .inr (.inr ⟨presented, rest, next⟩)
  | illegal _ busy | completed _ busy => simp [idle] at busy
  | idle | read | writeWithoutEffect | writeIgnored | argWritten | wordWritten => exact .inl ⟨rfl, rfl⟩

/-- Settles O48. -/
theorem errorIsClearedOnlyByAcceptanceOrReset : Obligations.ErrorIsClearedOnlyByAcceptanceOrReset := by
  intro s t hs hstep
  refine ⟨?_, fun hother herr => ?_⟩
  · rintro (⟨idle, c, rest, next⟩ | ⟨presented, rest, next⟩)
    · rw [step_accept idle next] at hstep
      cases hstep
      exact ⟨rfl, rfl⟩
    · rw [step_reset next] at hstep
      cases hstep
      simp [Status.reset]
  · have idle := hs.idle_of_err herr
    obtain ⟨herr', hcode⟩ | haccept | hreset := (stepEffect_of_step hstep).error_kept_of_idle idle
    · exact ⟨herr'.trans herr, hcode⟩
    · exact absurd (.inl ⟨idle, haccept⟩) hother
    · exact absurd (.inr hreset) hother

/-! ### Every command completes -/

/-- A step uses up the next event, and adds none. -/
theorem StepEffect.agenda_eq {s t : State} (h : StepEffect s t) : t.agenda = s.agenda.tail := by
  cases h with
  | idle | illegal | completed => simp
  | read _ _ next | writeWithoutEffect _ _ _ next | writeIgnored _ _ _ next | accepted _ _ next | argWritten _ _ next
  | wordWritten _ _ _ _ next | reset _ _ next => simp [next]

/-- A run of one step is that step. -/
theorem run_one {s t : State} (hstep : step s = .next t) : Sys2Proof.core.run 1 s = .next t :=
  (run_succ 0 s t hstep).trans (run_zero t)

/-- The engine's turn completes the command in flight (R202). -/
theorem completes_of_turn {s : State} (turn : s.agenda = [] ∨ ∃ rest, s.agenda = .engine :: rest)
    (busy : s.status.busy = true) :
    ∃ t, Sys2Proof.core.run 1 s = .next t ∧ t.status.busy = false ∧ t.status.done = true ∧ t.cmdr = s.cmdr := by
  obtain ⟨e, he⟩ := step_ending_of_turn turn busy
  exact ⟨_, run_one he, by simp⟩

/-- A command in flight completes, by induction on the events still to come: a transaction keeps it in flight, and the engine's
turn completes it (R202). -/
theorem command_completes (es : List Event) (hreset : ∀ presented, Event.reset presented ∉ es) {s : State}
    (hagenda : s.agenda = es) (busy : s.status.busy = true) :
    ∃ k t, k ≤ es.length + 1 ∧ Sys2Proof.core.run k s = .next t ∧
      t.status.busy = false ∧ t.status.done = true ∧ t.cmdr = s.cmdr := by
  induction es generalizing s with
  | nil =>
    obtain ⟨t, ht⟩ := completes_of_turn (.inl hagenda) busy
    exact ⟨1, t, by simp, ht⟩
  | cons event es ih =>
    cases event with
    | engine =>
      obtain ⟨t, ht⟩ := completes_of_turn (.inr ⟨es, hagenda⟩) busy
      exact ⟨1, t, by simp, ht⟩
    | host tr =>
      have hsame := SameUpToBerr.transact busy tr es
      obtain ⟨k, t, hk, hrun, hidle, hdone, hcmdr⟩ := ih (fun presented hm => hreset presented (.tail _ hm))
        (transact_agenda tr _) (hsame.busy_eq.trans busy)
      exact ⟨k + 1, t, by simpa using hk, (run_succ k _ _ (step_host hagenda)).trans hrun, hidle, hdone,
        hcmdr.trans hsame.cmdr_eq⟩
    | reset presented => exact absurd (.head _) (hreset presented)

/-- Whatever the events still to come, the machine is idle one step after the last of them, by induction on them: that step is
the engine's turn (log entry 1). -/
theorem machine_idles (es : List Event) {s : State} (hagenda : s.agenda = es) :
    ∃ t, Sys2Proof.core.run (es.length + 1) s = .next t ∧ t.status.busy = false ∧ t.agenda = [] := by
  induction es generalizing s with
  | nil =>
    obtain ⟨t, hstep⟩ := everyStepAnswersANextState s
    exact ⟨t, run_one hstep, idle_of_turn (.inl hagenda) hstep, by rw [(stepEffect_of_step hstep).agenda_eq, hagenda]; rfl⟩
  | cons event es ih =>
    obtain ⟨u, hstep⟩ := everyStepAnswersANextState s
    obtain ⟨t, hrun, ht⟩ := ih (s := u) (by rw [(stepEffect_of_step hstep).agenda_eq, hagenda]; rfl)
    exact ⟨t, (run_succ _ s u hstep).trans hrun, ht⟩

/-- Settles O17. -/
theorem everyCommandCompletesInBoundedSteps : Obligations.EveryCommandCompletesInBoundedSteps := by
  refine ⟨fun s busy hreset => command_completes s.agenda hreset rfl busy, fun s => ?_⟩
  obtain ⟨t, ht⟩ := machine_idles s.agenda rfl
  exact ⟨_, t, le_rfl, ht⟩

end Sys2Proof.Machine

namespace Sys2Proof.Machine

/-! ### What reset leaves -/

/-- After a reset the machine is the reset state facing the world outside, of which the transaction presented to the
reset touches the returned data alone (R230, R233). -/
theorem State.hardReset_eq (presented : Option Transaction) (s : State) :
    s.hardReset presented = { State.reset with
      agenda := s.agenda, received := (s.hardReset presented).received, draws := s.draws } := by
  rcases presented with _ | (_ | _) <;> rfl

/-- Settles O2: what the step leaves is the reset state but for the world outside, and R33 gives the reset state's values. -/
theorem resetAbandonsWhateverWasInFlight : Obligations.ResetAbandonsWhateverWasInFlight := by
  intro s presented rest next
  have hzero (r : VReg) : State.reset.regs[r] = 0#4096 := by simp [State.reset]
  obtain ⟨-, harg, hcmdr, -, hstatus, hpend, -⟩ := resetStateHoldsSpecValues
  refine ⟨_, step_reset next, ?_⟩
  rw [State.hardReset_eq]
  exact ⟨hzero, harg, hcmdr, hstatus, rfl, hpend⟩

/-- Settles O58: the step and the one with nothing presented both leave the state of `State.hardReset_eq`. -/
theorem transactionsDuringResetHaveNoEffect : Obligations.TransactionsDuringResetHaveNoEffect := by
  intro s presented rest next
  refine ⟨_, step_reset next, ?_, State.hardReset_agenda .., ?_, ?_⟩
  · rw [step_reset rfl, State.hardReset_eq presented, State.hardReset_eq none]
    rfl
  · rw [State.hardReset_eq]
  · rcases presented with _ | (_ | _) <;> rfl

end Sys2Proof.Machine
